-- ==== Sys2Proof/Word.lean ====
section
/-!
DEFINITION. Widths and the plainest word arithmetic (spec 00_scope R5, R8).
All values of the machine are unsigned (00_scope R8, 90_conflicts C4).
-/

namespace Sys2Proof

/-- A memory byte or a general register: XLEN = 8 bits (00_scope R5). -/
abbrev Byte := BitVec 8

/-- I, PC, SP and an instruction word: 16 bits (00_scope R5). -/
abbrev Word := BitVec 16

/-- The index of a general register, 0 to 15 (10_state R21). -/
abbrev RegIdx := Fin 16

/-- VF, the general register that doubles as the flag register (10_state R22). -/
abbrev VF : RegIdx := 15

/-- `zext_16` of a byte (00_scope R9). -/
def zext16 (b : Byte) : Word := b.setWidth 16

/-- A word of two bytes, the first one more significant (20_memory R65, R67). -/
def joinBytes (hi lo : Byte) : Word := hi ++ lo

/-- Bits 15:8 of a word (20_memory R66). -/
def highByte (w : Word) : Byte := w.extractLsb' 8 8

/-- Bits 7:0 of a word (20_memory R66). -/
def lowByte (w : Word) : Byte := w.extractLsb' 0 8

end Sys2Proof
end

