-- ==== Sys2Proof/Syntax.lean ====
section
/-!
DEFINITION. The instruction set: one constructor per row of spec/opcode_table.json (30_encoding R95), with the fields of the
row's pattern (30_encoding R91): `x`, `y` register indices, `kk` a byte, `n` four bits, `nnn` twelve bits.
Every value of every field is legal (30_encoding R97).
-/

namespace Sys2Proof

/-- The 34 instructions, in the table's order. -/
inductive Instr where
  /-- `00E0` CLS (45_display_keypad R210). -/
  | cls
  /-- `00EE` RET (41_control_flow R140). -/
  | ret
  /-- `1nnn` JP nnn (41_control_flow R141). -/
  | jp (nnn : BitVec 12)
  /-- `2nnn` CALL nnn (41_control_flow R142). -/
  | call (nnn : BitVec 12)
  /-- `3xkk` SE Vx, kk (41_control_flow R143). -/
  | seImm (x : RegIdx) (kk : Byte)
  /-- `4xkk` SNE Vx, kk (41_control_flow R144). -/
  | sneImm (x : RegIdx) (kk : Byte)
  /-- `5xy0` SE Vx, Vy (41_control_flow R145). -/
  | seReg (x y : RegIdx)
  /-- `6xkk` LD Vx, kk (42_register_alu R161). -/
  | ldImm (x : RegIdx) (kk : Byte)
  /-- `7xkk` ADD Vx, kk (42_register_alu R162). -/
  | addImm (x : RegIdx) (kk : Byte)
  /-- `8xy0` LD Vx, Vy (42_register_alu R163). -/
  | ldReg (x y : RegIdx)
  /-- `8xy1` OR Vx, Vy (42_register_alu R164). -/
  | orReg (x y : RegIdx)
  /-- `8xy2` AND Vx, Vy (42_register_alu R165). -/
  | andReg (x y : RegIdx)
  /-- `8xy3` XOR Vx, Vy (42_register_alu R166). -/
  | xorReg (x y : RegIdx)
  /-- `8xy4` ADD Vx, Vy (42_register_alu R167). -/
  | addReg (x y : RegIdx)
  /-- `8xy5` SUB Vx, Vy (42_register_alu R168). -/
  | subReg (x y : RegIdx)
  /-- `8xy6` SHR Vx; the `y` field is decoded and ignored (42_register_alu R169, 30_encoding R92). -/
  | shr (x y : RegIdx)
  /-- `8xy7` SUBN Vx, Vy (42_register_alu R170). -/
  | subnReg (x y : RegIdx)
  /-- `8xyE` SHL Vx; the `y` field is decoded and ignored (42_register_alu R171, 30_encoding R92). -/
  | shl (x y : RegIdx)
  /-- `9xy0` SNE Vx, Vy (41_control_flow R146). -/
  | sneReg (x y : RegIdx)
  /-- `Annn` LD I, nnn (43_index_memory R180). -/
  | ldI (nnn : BitVec 12)
  /-- `Bnnn` JP V0, nnn (41_control_flow R147). -/
  | jpV0 (nnn : BitVec 12)
  /-- `Cxkk` RND Vx, kk (44_random_timers R201). -/
  | rnd (x : RegIdx) (kk : Byte)
  /-- `Dxyn` DRW Vx, Vy, n (45_display_keypad R213). -/
  | drw (x y : RegIdx) (n : BitVec 4)
  /-- `Ex9E` SKP Vx (45_display_keypad R215). -/
  | skp (x : RegIdx)
  /-- `ExA1` SKNP Vx (45_display_keypad R218). -/
  | sknp (x : RegIdx)
  /-- `Fx07` LD Vx, DT (44_random_timers R202). -/
  | ldVxDt (x : RegIdx)
  /-- `Fx0A` LD Vx, K (45_display_keypad R217). -/
  | ldVxK (x : RegIdx)
  /-- `Fx15` LD DT, Vx (44_random_timers R203). -/
  | ldDtVx (x : RegIdx)
  /-- `Fx18` LD ST, Vx (44_random_timers R204). -/
  | ldStVx (x : RegIdx)
  /-- `Fx1E` ADD I, Vx (43_index_memory R181). -/
  | addI (x : RegIdx)
  /-- `Fx29` LD F, Vx (43_index_memory R182). -/
  | ldF (x : RegIdx)
  /-- `Fx33` LD B, Vx (43_index_memory R183). -/
  | ldB (x : RegIdx)
  /-- `Fx55` LD [I], Vx (43_index_memory R184). -/
  | storeRegs (x : RegIdx)
  /-- `Fx65` LD Vx, [I] (43_index_memory R185). -/
  | loadRegs (x : RegIdx)
deriving DecidableEq, Repr

end Sys2Proof
end

