-- ==== Sys2Proof/Decode.lean ====
section
/-!
DEFINITION. The decoder (30_encoding R91, R94), total on every word and every list of bytes and rejecting by name, and the encoder,
written from the patterns of 30_encoding R92 and R95.
-/

namespace Sys2Proof

/-! ### The fields of a word (30_encoding R91) -/

/-- `n0`, bits 15:12: the major opcode. -/
def fieldOp (w : Word) : BitVec 4 := w.extractLsb' 12 4
/-- `x`, bits 11:8. -/
def fieldX (w : Word) : BitVec 4 := w.extractLsb' 8 4
/-- `y`, bits 7:4. -/
def fieldY (w : Word) : BitVec 4 := w.extractLsb' 4 4
/-- `n`, bits 3:0. -/
def fieldN (w : Word) : BitVec 4 := w.extractLsb' 0 4
/-- `kk`, bits 7:0. -/
def fieldKK (w : Word) : Byte := w.extractLsb' 0 8
/-- `nnn`, bits 11:0. -/
def fieldNNN (w : Word) : BitVec 12 := w.extractLsb' 0 12

/-- The register that a 4-bit field names (30_encoding R93: every value names one). -/
def regOf (f : BitVec 4) : RegIdx := f.toFin

/-! ### Decoding -/

/-- Group 0: two words, all 16 bits fixed (30_encoding R94). -/
def decodeGroup0 (w : Word) : Option Instr :=
  if w = 0x00E0 then some .cls else if w = 0x00EE then some .ret else none

/-- Group 8: the minor opcode is the low nibble (30_encoding R94). -/
def decodeGroup8 (x y : RegIdx) (n : BitVec 4) : Option Instr :=
  match n.toNat with
  | 0x0 => some (.ldReg x y)
  | 0x1 => some (.orReg x y)
  | 0x2 => some (.andReg x y)
  | 0x3 => some (.xorReg x y)
  | 0x4 => some (.addReg x y)
  | 0x5 => some (.subReg x y)
  | 0x6 => some (.shr x y)
  | 0x7 => some (.subnReg x y)
  | 0xE => some (.shl x y)
  | _ => none

/-- Group E: the minor opcode is the low byte (30_encoding R94). -/
def decodeGroupE (x : RegIdx) (kk : Byte) : Option Instr :=
  if kk = 0x9E then some (.skp x) else if kk = 0xA1 then some (.sknp x) else none

/-- Group F: the minor opcode is the low byte (30_encoding R94). -/
def decodeGroupF (x : RegIdx) (kk : Byte) : Option Instr :=
  if kk = 0x07 then some (.ldVxDt x)
  else if kk = 0x0A then some (.ldVxK x)
  else if kk = 0x15 then some (.ldDtVx x)
  else if kk = 0x18 then some (.ldStVx x)
  else if kk = 0x1E then some (.addI x)
  else if kk = 0x29 then some (.ldF x)
  else if kk = 0x33 then some (.ldB x)
  else if kk = 0x55 then some (.storeRegs x)
  else if kk = 0x65 then some (.loadRegs x)
  else none

/-- `Decode(w)` (30_encoding R94): an instruction, or none for an undefined word. It reads nothing but the word (R98). -/
def decodeWord (w : Word) : Option Instr :=
  match (fieldOp w).toNat with
  | 0x0 => decodeGroup0 w
  | 0x1 => some (.jp (fieldNNN w))
  | 0x2 => some (.call (fieldNNN w))
  | 0x3 => some (.seImm (regOf (fieldX w)) (fieldKK w))
  | 0x4 => some (.sneImm (regOf (fieldX w)) (fieldKK w))
  | 0x5 => if fieldN w = 0 then some (.seReg (regOf (fieldX w)) (regOf (fieldY w))) else none
  | 0x6 => some (.ldImm (regOf (fieldX w)) (fieldKK w))
  | 0x7 => some (.addImm (regOf (fieldX w)) (fieldKK w))
  | 0x8 => decodeGroup8 (regOf (fieldX w)) (regOf (fieldY w)) (fieldN w)
  | 0x9 => if fieldN w = 0 then some (.sneReg (regOf (fieldX w)) (regOf (fieldY w))) else none
  | 0xA => some (.ldI (fieldNNN w))
  | 0xB => some (.jpV0 (fieldNNN w))
  | 0xC => some (.rnd (regOf (fieldX w)) (fieldKK w))
  | 0xD => some (.drw (regOf (fieldX w)) (regOf (fieldY w)) (fieldN w))
  | 0xE => decodeGroupE (regOf (fieldX w)) (fieldKK w)
  | _ => decodeGroupF (regOf (fieldX w)) (fieldKK w)

/-- Why a list of bytes gives no instruction. -/
inductive DecodeError where
  /-- Fewer than the two bytes every instruction has (30_encoding R90). -/
  | tooShort
  /-- The word matches no pattern (30_encoding R96). -/
  | undefinedWord (w : Word)
deriving DecidableEq, Repr

/-- Decode the instruction at the head of a list of bytes, high byte first (30_encoding R90), with the bytes after it. -/
def decode : List Byte → Except DecodeError (Instr × List Byte)
  | hi :: lo :: rest =>
    match decodeWord (joinBytes hi lo) with
    | some i => .ok (i, rest)
    | none => .error (.undefinedWord (joinBytes hi lo))
  | _ => .error .tooShort

/-! ### Encoding -/

/-- The 4-bit field that names a register. -/
def regField (x : RegIdx) : BitVec 4 := BitVec.ofFin x

/-- Form F-NNN (30_encoding R92). -/
def formNNN (op : BitVec 4) (nnn : BitVec 12) : Word := op ++ nnn
/-- Form F-XKK (30_encoding R92). -/
def formXKK (op : BitVec 4) (x : RegIdx) (kk : Byte) : Word := op ++ regField x ++ kk
/-- Form F-XY and form F-XYN (30_encoding R92). -/
def formXYN (op : BitVec 4) (x y : RegIdx) (n : BitVec 4) : Word := op ++ regField x ++ regField y ++ n
/-- Form F-X (30_encoding R92): an F-XKK word whose low byte is the minor opcode. -/
def formX (op : BitVec 4) (x : RegIdx) (minor : Byte) : Word := formXKK op x minor

/-- The word of an instruction (30_encoding R95). -/
def encode : Instr → Word
  | .cls => 0x00E0
  | .ret => 0x00EE
  | .jp nnn => formNNN 0x1 nnn
  | .call nnn => formNNN 0x2 nnn
  | .seImm x kk => formXKK 0x3 x kk
  | .sneImm x kk => formXKK 0x4 x kk
  | .seReg x y => formXYN 0x5 x y 0x0
  | .ldImm x kk => formXKK 0x6 x kk
  | .addImm x kk => formXKK 0x7 x kk
  | .ldReg x y => formXYN 0x8 x y 0x0
  | .orReg x y => formXYN 0x8 x y 0x1
  | .andReg x y => formXYN 0x8 x y 0x2
  | .xorReg x y => formXYN 0x8 x y 0x3
  | .addReg x y => formXYN 0x8 x y 0x4
  | .subReg x y => formXYN 0x8 x y 0x5
  | .shr x y => formXYN 0x8 x y 0x6
  | .subnReg x y => formXYN 0x8 x y 0x7
  | .shl x y => formXYN 0x8 x y 0xE
  | .sneReg x y => formXYN 0x9 x y 0x0
  | .ldI nnn => formNNN 0xA nnn
  | .jpV0 nnn => formNNN 0xB nnn
  | .rnd x kk => formXKK 0xC x kk
  | .drw x y n => formXYN 0xD x y n
  | .skp x => formX 0xE x 0x9E
  | .sknp x => formX 0xE x 0xA1
  | .ldVxDt x => formX 0xF x 0x07
  | .ldVxK x => formX 0xF x 0x0A
  | .ldDtVx x => formX 0xF x 0x15
  | .ldStVx x => formX 0xF x 0x18
  | .addI x => formX 0xF x 0x1E
  | .ldF x => formX 0xF x 0x29
  | .ldB x => formX 0xF x 0x33
  | .storeRegs x => formX 0xF x 0x55
  | .loadRegs x => formX 0xF x 0x65

/-- The two bytes of an instruction as memory holds them, high byte first (20_memory R67). -/
def encodeBytes (i : Instr) : List Byte := [highByte (encode i), lowByte (encode i)]

/-- The instruction the decoder reads from a word numbered as spec/opcode_table.json numbers it, with every bit above `nbits` 0. -/
def decodeTableWord (nbits w : Nat) : Option Instr :=
  match decode [highByte (BitVec.ofNat 16 (w % 2 ^ nbits)), lowByte (BitVec.ofNat 16 (w % 2 ^ nbits))] with
  | .ok (i, _) => some i
  | .error _ => none

end Sys2Proof
end

