-- ==== Sys2Proof/Config.lean ====
section
/-!
DEFINITION. The parameters of spec 00_scope R5 and the free values.
A constant without a body (`opaque`) is one the spec leaves OPEN: nothing in Lean can evaluate it, so whatever is proved holds
for every value of it.
-/

namespace Sys2Proof

/-- What the environment gives one tick: the host's `elapsed_ms` and the collaborators' replies
(00_scope R7; 10_state R38: inputs of the step, not state). A tick makes at most one request, so it uses at most one reply. -/
structure TickInput where
  /-- `elapsed_ms` of TICK, unsigned and of any size (60_exceptions R251, decision D17, log 3). -/
  elapsed : Nat
  /-- The Display's reply to DISP_DRAW (45_display_keypad R212). -/
  collided : Bool
  /-- The Keypad's reply to KEY_IS_DOWN (45_display_keypad R214). -/
  down : Bool
  /-- The Keypad's reply to KEY_EVENT: none, or a 4-bit key number (45_display_keypad R216). -/
  key : Option (BitVec 4)
deriving DecidableEq, Repr, Inhabited

namespace Config

/-- MEM_SIZE: bytes of memory (00_scope R5). -/
def memSize : Nat := 4096

/-- STACK_BASE: reset value of SP and upper limit of the stack (00_scope R5). -/
def stackBase : Nat := 0x200

/-- TICK_PERIOD_MS (00_scope R5, decision D4, 90_conflicts C2, log 8). -/
def tickPeriodMs : Nat := 16

/-- FONT_STRIDE: bytes per font sprite (00_scope R5). -/
def fontStride : Nat := 5

/-- RESET_PC. DESIGN CHOICE: OPEN in the spec with default 0x200 (00_scope R5, decision D1, log 4); the model takes the default. -/
def resetPc : Word := 0x200

/-- FONT_BASE. OPEN in the spec (00_scope R5, decision D3, log 6): uninterpreted. -/
opaque fontBase : Word

/-- Which nonzero word PRNG_SEED is, counted from 0. OPEN in the spec (00_scope R5, decision D2, log 5): uninterpreted. -/
opaque seedIndex : Fin 4294967295

/-- PRNG_SEED: any nonzero 32-bit word (10_state R35). -/
def prngSeed : BitVec 32 := BitVec.ofNat 32 (seedIndex.val + 1)

/-- FREE VALUE: the inputs of the n-th tick, for a tick whose inputs nothing has fixed (45_display_keypad R220, log 2). -/
opaque freeTickInput : Nat → TickInput

end Config
end Sys2Proof
end

