-- ==== Sys2Proof/Machine/State.lean ====
section
/-!
DEFINITION. The machine's state (10_state R20), the errors it raises, its outputs, and the state after reset (10_state R39).
-/

namespace Sys2Proof.Machine

/-- The three error kinds of 60_exceptions R230, with what each reports (R235). The spec describes what raising one does: the tick
ends, the host is told, and the machine stands ready for the next tick (R236, R237, R239). So `raise` (Machine/Ops.lean) makes a NEXT
state that records the error, and no meaning answers `Host.Outcome.fault` (log 1); `Machine.guardedStep` (Safety.lean) is the
cautious view that stops at the first error. -/
inductive Fault where
  /-- Raised by a memory access of `len` bytes at `addr` that is not inside memory: the fetch, `Dxyn`, `Fx33`, `Fx55`, `Fx65` and the
  host's load (60_exceptions R231). Safe: the spec gives the error and the state it leaves. -/
  | addressOutOfRange (addr len : Nat)
  /-- Raised by `2nnn` on a full stack and by `00EE` on an empty one; `sp` is SP at the time (60_exceptions R232). Safe. -/
  | stackFault (sp : Word)
  /-- Raised by the dispatch on an undefined word `w` (60_exceptions R233). Safe. -/
  | unknownOpcode (w : Word)
deriving DecidableEq, Repr

/-- Reasons to give an instruction no meaning. -/
inductive Refusal where
  /-- Raised only by an arm of `exec` whose instruction has no meaning yet; no arm of this model does. Safe. -/
  | notModelled (mnemonic : String)
deriving DecidableEq, Repr

/-- What a tick returns to the host (40_cycle R133, decision D11, log 13). -/
inductive TickResult where
  /-- The tick completed an instruction. -/
  | ok
  /-- After the tick an `Fx0A` is pending. -/
  | waiting
  /-- A `raise` ended the tick. -/
  | error (f : Fault)
deriving DecidableEq, Repr

/-- A request on a collaborator's port (00_scope R7). -/
inductive Request where
  /-- DISP_CLEAR (45_display_keypad R211). -/
  | dispClear
  /-- DISP_DRAW, coordinates and sprite bytes (45_display_keypad R212). -/
  | dispDraw (x y : Byte) (sprite : List Byte)
  /-- KEY_IS_DOWN, the full byte of Vx (45_display_keypad R214). -/
  | keyIsDown (key : Byte)
  /-- KEY_EVENT (45_display_keypad R216). -/
  | keyEvent
deriving DecidableEq, Repr

/-- Memory as its nonzero bytes: address and byte, addresses strictly rising; an address not listed holds 0x00, the reset content
(10_state R37). -/
abbrev Memory := List Host.Cell

/-- The state. The first eleven fields are the spec's (10_state R20); the last five are the model's own (log 27). -/
structure State where
  /-- `Mem` (10_state R37). -/
  mem : Memory
  /-- `V[0]` to `V[15]` (10_state R21, R22). -/
  v : Vector Byte 16
  /-- `I` (10_state R24). -/
  i : Word
  /-- `PC` (10_state R25). -/
  pc : Word
  /-- `SP` (10_state R28). -/
  sp : Word
  /-- `DT` (10_state R33). -/
  dt : Byte
  /-- `ST` (10_state R33). -/
  st : Byte
  /-- `LEFTOVER`, 0 to 15 (10_state R34; the range is part of `Inv`, log 30). -/
  leftover : Nat
  /-- `PRNG` (10_state R35). -/
  prng : BitVec 32
  /-- `WAIT` (10_state R36). -/
  wait : Bool
  /-- `WAITX`, meaningful only while `wait` (10_state R36). -/
  waitx : RegIdx
  /-- The request the last tick sent, at most one (40_cycle R134). -/
  sent : Option Request
  /-- What the last tick returned; none before the first tick. -/
  result : Option TickResult
  /-- The first error any tick has reported: the sticky record 60_exceptions R239 asks a model to keep. -/
  firstError : Option Fault
  /-- The inputs of the coming ticks that are already fixed, the next tick's first (log 2). -/
  inputs : List TickInput
  /-- How many ticks have run: the index of the next free input (log 2). -/
  ticks : Nat
deriving DecidableEq, Repr

/-- The state after `RESET` (10_state R39). -/
def State.reset : State where
  mem := []
  v := Vector.replicate 16 0
  i := 0
  pc := Config.resetPc
  sp := BitVec.ofNat 16 Config.stackBase
  dt := 0
  st := 0
  leftover := 0
  prng := Config.prngSeed
  wait := false
  waitx := 0
  sent := none
  result := none
  firstError := none
  inputs := []
  ticks := 0

end Sys2Proof.Machine
end

