-- ==== Sys2Proof/Machine/Ops.lean ====
section
/-!
DEFINITION. The named operations over memory, registers, stack, PRNG and the tick's outputs: everything more than one instruction
uses. Addresses are naturals: address arithmetic never wraps (20_memory R80, log 20).
-/

namespace Sys2Proof.Machine

/-! ### Memory as data -/

/-- The byte at an address; an address the list does not hold reads 0x00 (10_state R37: memory is zero-filled at reset, log 26). -/
def Memory.read : Memory → Nat → Byte
  | [], _ => 0
  | (a, b) :: m, k => if a = k then b else Memory.read m k

/-- The memory without its entry for an address. -/
def Memory.without (m : Memory) (k : Nat) : Memory := m.filter (fun c => c.1 != k)

/-- Put an entry in its place by address. -/
def Memory.place (k : Nat) (b : Byte) : Memory → Memory
  | [] => [(k, b)]
  | (a, c) :: m => if k < a then (k, b) :: (a, c) :: m else (a, c) :: Memory.place k b m

/-- Store one byte, keeping the canonical form: a zero byte is not listed. -/
def Memory.write (m : Memory) (k : Nat) (b : Byte) : Memory :=
  if b = 0 then m.without k else Memory.place k b (m.without k)

/-- Store consecutive bytes, the first at address `k` (20_memory R64). -/
def Memory.writeBlock (m : Memory) (k : Nat) : List Byte → Memory
  | [] => m
  | b :: bs => Memory.writeBlock (m.write k b) (k + 1) bs

/-- Read `n` consecutive bytes, lowest address first (20_memory R63). -/
def Memory.readBlock (m : Memory) (k : Nat) : Nat → List Byte
  | 0 => []
  | n + 1 => m.read k :: Memory.readBlock m (k + 1) n

/-- The canonical form: addresses strictly rising and inside memory, no listed byte zero. -/
def Memory.wf : Memory → Bool
  | [] => true
  | [(a, b)] => decide (a < Config.memSize) && b != 0
  | (a, b) :: (a', b') :: m => decide (a < a') && b != 0 && Memory.wf ((a', b') :: m)

/-! ### The access primitives (20_memory R62 to R66, R79) -/

/-- Whether an access of `len` bytes at `addr` is allowed: length 0 touches nothing (20_memory R79, decision D16), any other must lie
inside memory as a whole (20_memory R62). -/
def inRange (addr len : Nat) : Bool := len == 0 || decide (addr + len ≤ Config.memSize)

/-- `MemRead(addr, n)` (20_memory R63). -/
def memRead (m : Memory) (addr n : Nat) : Except Fault (List Byte) :=
  if inRange addr n then .ok (m.readBlock addr n) else .error (.addressOutOfRange addr n)

/-- `MemWrite(addr, n, bytes)` (20_memory R64). -/
def memWrite (m : Memory) (addr : Nat) (bytes : List Byte) : Except Fault Memory :=
  if inRange addr bytes.length then .ok (m.writeBlock addr bytes)
  else .error (.addressOutOfRange addr bytes.length)

/-- `MemReadWord(addr)`, big-endian (20_memory R65). -/
def memReadWord (m : Memory) (addr : Nat) : Except Fault Word :=
  match memRead m addr 2 with
  | .ok _ => .ok (joinBytes (m.read addr) (m.read (addr + 1)))
  | .error f => .error f

/-- `MemWriteWord(addr, w)`, big-endian (20_memory R66). -/
def memWriteWord (m : Memory) (addr : Nat) (w : Word) : Except Fault Memory :=
  memWrite m addr [highByte w, lowByte w]

/-! ### Registers (10_state R21; 00_scope R9) -/

/-- `V[x]`. -/
def State.reg (s : State) (x : RegIdx) : Byte := s.v[x.val]

/-- `V[x] <- b`. -/
def State.setReg (s : State) (x : RegIdx) (b : Byte) : State := { s with v := s.v.set x.val b }

/-- `V[k], V[k+1], ...` as many as `n` (43_index_memory R184). -/
def State.regList (s : State) (k : Nat) : Nat → List Byte
  | 0 => []
  | n + 1 => s.reg (Fin.ofNat 16 k) :: State.regList s (k + 1) n

/-- Write consecutive registers, the first one `V[k]` (43_index_memory R185). -/
def State.setRegList (s : State) (k : Nat) : List Byte → State
  | [] => s
  | b :: bs => State.setRegList (s.setReg (Fin.ofNat 16 k) b) (k + 1) bs

/-! ### The other elements (00_scope R9: written with `<-`) -/

/-- Memory replaced. -/
def State.setMem (s : State) (m : Memory) : State := { s with mem := m }
/-- `I <- a`. -/
def State.setI (s : State) (a : Word) : State := { s with i := a }
/-- `PC <- a`. -/
def State.setPc (s : State) (a : Word) : State := { s with pc := a }
/-- `SP <- a`. -/
def State.setSp (s : State) (a : Word) : State := { s with sp := a }
/-- `DT <- b`. -/
def State.setDt (s : State) (b : Byte) : State := { s with dt := b }
/-- `ST <- b`. -/
def State.setSt (s : State) (b : Byte) : State := { s with st := b }
/-- `PRNG <- w`. -/
def State.setPrng (s : State) (w : BitVec 32) : State := { s with prng := w }
/-- `WAIT <- 1; WAITX <- x` (45_display_keypad R217). -/
def State.enterWait (s : State) (x : RegIdx) : State := { s with wait := true, waitx := x }
/-- `WAIT <- 0` (45_display_keypad R219). -/
def State.leaveWait (s : State) : State := { s with wait := false }

/-! ### The program counter -/

/-- `PC <- (PC + 2) mod 65536` (40_cycle R125). -/
def advancePc (s : State) : State := s.setPc (s.pc + 2)

/-- `Skip()`: the same addition, on the advanced PC (40_cycle R128, log 24). -/
def skip (s : State) : State := s.setPc (s.pc + 2)

/-- `Skip()` when a condition holds. -/
def skipIf (c : Bool) (s : State) : State := if c then skip s else s

/-! ### The stack (10_state R31, R32; decision D6, log 9) -/

/-- `Push(w)`: on an error nothing has changed. -/
def push (w : Word) (s : State) : Except Fault State :=
  if s.sp.toNat < 2 then .error (.stackFault s.sp)
  else
    match memWriteWord s.mem (s.sp.toNat - 2) w with
    | .ok m => .ok ((s.setSp (s.sp - 2)).setMem m)
    | .error f => .error f

/-- `Pop()`: the word, and the state with SP moved; the popped bytes stay in memory. -/
def pop (s : State) : Except Fault (Word × State) :=
  if s.sp.toNat + 2 > Config.stackBase then .error (.stackFault s.sp)
  else
    match memReadWord s.mem s.sp.toNat with
    | .ok w => .ok (w, s.setSp (s.sp + 2))
    | .error f => .error f

/-! ### The PRNG (44_random_timers R200, log 19) -/

/-- One xorshift step of the 32-bit word: 13 left, 17 right (logical), 5 left. -/
def xorshift (s : BitVec 32) : BitVec 32 :=
  let s := s ^^^ (s <<< 13)
  let s := s ^^^ (s >>> 17)
  s ^^^ (s <<< 5)

/-- `NextRandom()`: the byte, and the state with the new word stored. -/
def nextRandom (s : State) : Byte × State :=
  ((xorshift s.prng).setWidth 8, s.setPrng (xorshift s.prng))

/-! ### Digits and the font (43_index_memory R182, R183) -/

/-- The hundreds, tens and ones of a byte, each in a byte of its own (43_index_memory R183). -/
def bcdDigits (v : Byte) : List Byte :=
  [BitVec.ofNat 8 (v.toNat / 100), BitVec.ofNat 8 (v.toNat / 10 % 10), BitVec.ofNat 8 (v.toNat % 10)]

/-- `(base + 5 * digit) mod 65536` on all 8 bits of the digit (43_index_memory R182, decision D14, log 16). -/
def fontAddress (base : Word) (digit : Byte) : Word :=
  BitVec.ofNat 16 (base.toNat + Config.fontStride * digit.toNat)

/-! ### How a tick ends, and what it sends -/

/-- What an instruction, or a wait, answers. -/
abbrev Result := Host.Outcome State Fault Refusal

/-- The tick's result is recorded (40_cycle R133). -/
def State.setResult (s : State) (r : TickResult) : State := { s with result := some r }

/-- The first error is recorded, and never overwritten (60_exceptions R239). -/
def State.noteError (s : State) (f : Fault) : State := { s with firstError := s.firstError.or (some f) }

/-- The instruction completed: the tick returns `Ok` (40_cycle R133). -/
def done (s : State) : Result := .next (s.setResult .ok)

/-- `raise f` (60_exceptions R236): TAKING THE EXCEPTION. The tick ends with `Error(f)`. Nothing is saved, no handler is entered, no
mode changes, and the rest of the state is as the tick left it (R237). There is no return from it to model: the next tick runs the
normal sequence (R239). The model's sticky record keeps the first error. -/
def raise (f : Fault) (s : State) : Result := .next ((s.noteError f).setResult (.error f))

/-- Put a request on a collaborator's port (45_display_keypad R220). -/
def send (r : Request) (s : State) : State := { s with sent := some r }

end Sys2Proof.Machine
end

