-- ==== Sys2Proof/Machine/Clock.lean ====
section
/-!
DEFINITION. The Clock: the timer-countdown engine (60_exceptions R250 to R253).
-/

namespace Sys2Proof.Machine

/-- Whole timer periods in the reported time and what was left over, on naturals (60_exceptions R251). -/
def periods (elapsed leftover : Nat) : Nat := (elapsed + leftover) / Config.tickPeriodMs

/-- `max(0, timer - ticks)` (60_exceptions R252). -/
def countDown (timer : Byte) (n : Nat) : Byte := BitVec.ofNat 8 (timer.toNat - n)

/-- `ClockPhase(elapsed_ms)` (60_exceptions R251). -/
def clockPhase (elapsed : Nat) (s : State) : State :=
  { s with
    dt := countDown s.dt (periods elapsed s.leftover)
    st := countDown s.st (periods elapsed s.leftover)
    leftover := (elapsed + s.leftover) % Config.tickPeriodMs }

end Sys2Proof.Machine
end

