-- ==== Sys2Proof/Machine/Operands.lean ====
section
/-!
DEFINITION. Every operand form of the instruction set (30_encoding R92, R93; 43_index_memory R186): registers are read with
`State.reg`; the forms below are the address immediate, the block a memory instruction names through I, and the reply of a
collaborator.
-/

namespace Sys2Proof.Machine

/-- `zext_16(nnn)` (30_encoding R93). -/
def addrImm (nnn : BitVec 12) : Word := nnn.setWidth 16

/-- The address of a data block: all 16 bits of I (43_index_memory R186). -/
def blockAddr (s : State) : Nat := s.i.toNat

/-- The number of registers `V[0]` to `V[x]` (43_index_memory R184). -/
def regCount (x : RegIdx) : Nat := x.val + 1

/-- `V[0], ..., V[x]` (43_index_memory R184). -/
def State.regsUpTo (s : State) (x : RegIdx) : List Byte := s.regList 0 (regCount x)

/-- The sprite height of `Dxyn` (30_encoding R93). -/
def spriteLen (n : BitVec 4) : Nat := n.toNat

/-- The inputs of the tick that is running or about to run: the first fixed one, or the tick's free inputs (45_display_keypad R220,
log 2). -/
def State.input (s : State) : TickInput :=
  match s.inputs with
  | t :: _ => t
  | [] => Config.freeTickInput s.ticks

/-- `zext_8(k)` of a 4-bit key number (45_display_keypad R217). -/
def keyByte (k : BitVec 4) : Byte := k.setWidth 8

end Sys2Proof.Machine
end

