-- ==== Sys2Proof/Machine/ControlFlow.lean ====
section
/-!
DEFINITION. Control transfer (41_control_flow). When a meaning of this file starts, the Clock phase has run and PC already holds the
address of the following instruction (40_cycle R125). No target is checked for range or alignment (41_control_flow R148).
-/

namespace Sys2Proof.Machine

/-- `00EE` RET (R140). -/
def execRet (s : State) : Result :=
  match pop s with
  | .ok (t, s') => done (s'.setPc t)
  | .error f => raise f s

/-- `1nnn` JP nnn (R141). -/
def execJp (nnn : BitVec 12) (s : State) : Result := done (s.setPc (addrImm nnn))

/-- `2nnn` CALL nnn (R142). -/
def execCall (nnn : BitVec 12) (s : State) : Result :=
  match push s.pc s with
  | .ok s' => done (s'.setPc (addrImm nnn))
  | .error f => raise f s

/-- `3xkk` SE Vx, kk (R143). -/
def execSeImm (x : RegIdx) (kk : Byte) (s : State) : Result := done (skipIf (s.reg x == kk) s)

/-- `4xkk` SNE Vx, kk (R144). -/
def execSneImm (x : RegIdx) (kk : Byte) (s : State) : Result := done (skipIf (s.reg x != kk) s)

/-- `5xy0` SE Vx, Vy (R145). -/
def execSeReg (x y : RegIdx) (s : State) : Result := done (skipIf (s.reg x == s.reg y) s)

/-- `9xy0` SNE Vx, Vy (R146). -/
def execSneReg (x y : RegIdx) (s : State) : Result := done (skipIf (s.reg x != s.reg y) s)

/-- `Bnnn` JP V0, nnn (R147): 16-bit sum, no wrap to 12 bits; the register is always V0. -/
def execJpV0 (nnn : BitVec 12) (s : State) : Result := done (s.setPc (addrImm nnn + zext16 (s.reg 0)))

end Sys2Proof.Machine
end

