-- ==== Sys2Proof/Machine/Flags.lean ====
section
/-!
DEFINITION. Every flag computation of the instruction set. The only flag is VF, written as a whole byte to 0x00 or 0x01
(10_state R22, R23; 00_scope R9 `SetFlagIf`), always computed from the operands as they were before the instruction
(42_register_alu R160).
-/

namespace Sys2Proof.Machine

/-- The byte a condition writes to VF. -/
def flagByte (c : Bool) : Byte := if c then 1 else 0

/-- `SetFlagIf(c)` (00_scope R9). -/
def setFlagIf (c : Bool) (s : State) : State := s.setReg VF (flagByte c)

/-- Carry of `8xy4`: the true sum exceeds 255 (42_register_alu R167). -/
def carryOut (a b : Byte) : Bool := decide (a.toNat + b.toNat > 255)

/-- No borrow of `a - b`: `a >= b` unsigned (42_register_alu R168, R170, R172). -/
def noBorrow (a b : Byte) : Bool := decide (b.toNat ≤ a.toNat)

/-- The bit a right shift drops (42_register_alu R169). -/
def lowBit (a : Byte) : Bool := a.getLsbD 0

/-- The bit a left shift drops (42_register_alu R171). -/
def highBit (a : Byte) : Bool := a.getLsbD 7

/-- Result to Vx, then flag to VF: the order of `8xy4`, `8xy5`, `8xy7` (42_register_alu R160, decision D8, log 11). -/
def writeResultThenFlag (x : RegIdx) (r : Byte) (c : Bool) (s : State) : State := setFlagIf c (s.setReg x r)

/-- Flag to VF, then result to Vx: the order of `8xy6`, `8xyE` (42_register_alu R160, decision D8, log 11). -/
def writeFlagThenResult (x : RegIdx) (r : Byte) (c : Bool) (s : State) : State := (setFlagIf c s).setReg x r

end Sys2Proof.Machine
end

