-- ==== Sys2Proof/Machine/DisplayKeypad.lean ====
section
/-!
DEFINITION. The instructions delegated to the Display and the Keypad, and the key wait (45_display_keypad). What the core sends stands
in `sent`; the reply is the tick's input (R220, log 2).
-/

namespace Sys2Proof.Machine

/-- `00E0` CLS (R210): one DISP_CLEAR, nothing else. -/
def execCls (s : State) : Result := done (send .dispClear s)

/-- `Dxyn` DRW Vx, Vy, n (R213): coordinates and sprite are read first, the request is sent, and VF takes the Display's reply. On a
bounds error nothing is sent (decision D20, log 21). -/
def execDrw (x y : RegIdx) (n : BitVec 4) (s : State) : Result :=
  match memRead s.mem (blockAddr s) (spriteLen n) with
  | .ok sprite => done (setFlagIf s.input.collided (send (.dispDraw (s.reg x) (s.reg y) sprite) s))
  | .error f => raise f s

/-- `Ex9E` SKP Vx (R215): the full byte of Vx is sent (R214, decision D13, log 15). -/
def execSkp (x : RegIdx) (s : State) : Result := done (skipIf s.input.down (send (.keyIsDown (s.reg x)) s))

/-- `ExA1` SKNP Vx (R218). -/
def execSknp (x : RegIdx) (s : State) : Result := done (skipIf (!s.input.down) (send (.keyIsDown (s.reg x)) s))

/-- A key has come: it is written and PC moves past the `Fx0A` (R217, R219). -/
def takeKey (x : RegIdx) (k : BitVec 4) (s : State) : State :=
  (advancePc (s.setReg x (keyByte k))).setResult .ok

/-- `Fx0A` LD Vx, K (R217). When this meaning starts PC still holds the address of the `Fx0A` (40_cycle R125). With a key the
instruction completes; without one the wait mode is entered and PC stays (decision D12, log 14). -/
def execLdVxK (x : RegIdx) (s : State) : Result :=
  .next (match s.input.key with
    | some k => takeKey x k (send .keyEvent s)
    | none => ((send .keyEvent s).enterWait x).setResult .waiting)

/-- `WaitPhase()` (R219): a tick of the wait mode asks for a key, and completes the pending `Fx0A` when there is one. -/
def waitPhase (s : State) : Result :=
  .next (match s.input.key with
    | some k => takeKey s.waitx k (send .keyEvent s).leaveWait
    | none => (send .keyEvent s).setResult .waiting)

end Sys2Proof.Machine
end

