-- ==== Sys2Proof/Machine/IndexMemory.lean ====
section
/-!
DEFINITION. The index register and the block memory instructions (43_index_memory). A block starts at the full 16-bit I, is checked as
a whole before anything moves, and leaves I alone (R186, decision D27, log 23).
-/

namespace Sys2Proof.Machine

/-- `Annn` LD I, nnn (R180). -/
def execLdI (nnn : BitVec 12) (s : State) : Result := done (s.setI (addrImm nnn))

/-- `Fx1E` ADD I, Vx (R181): modulo 65536, no flag. -/
def execAddI (x : RegIdx) (s : State) : Result := done (s.setI (s.i + zext16 (s.reg x)))

/-- `Fx29` LD F, Vx (R182): the address of the digit's sprite; memory is not read. -/
def execLdF (x : RegIdx) (s : State) : Result := done (s.setI (fontAddress Config.fontBase (s.reg x)))

/-- Store a block at I, or raise (20_memory R64). -/
def storeBlock (bytes : List Byte) (s : State) : Result :=
  match memWrite s.mem (blockAddr s) bytes with
  | .ok m => done (s.setMem m)
  | .error f => raise f s

/-- `Fx33` LD B, Vx (R183): hundreds, tens and ones as one block of three bytes (decision D15, log 17). -/
def execLdB (x : RegIdx) (s : State) : Result := storeBlock (bcdDigits (s.reg x)) s

/-- `Fx55` LD [I], Vx (R184). -/
def execStoreRegs (x : RegIdx) (s : State) : Result := storeBlock (s.regsUpTo x) s

/-- `Fx65` LD Vx, [I] (R185): the block is read whole before any register is written. -/
def execLoadRegs (x : RegIdx) (s : State) : Result :=
  match memRead s.mem (blockAddr s) (regCount x) with
  | .ok bytes => done (s.setRegList 0 bytes)
  | .error f => raise f s

end Sys2Proof.Machine
end

