-- ==== Sys2Proof/Machine/RandomTimers.lean ====
section
/-!
DEFINITION. The random-number and timer instructions (44_random_timers). The Clock phase of the same tick has already run (R205).
-/

namespace Sys2Proof.Machine

/-- `Cxkk` RND Vx, kk (R201): the generator advances once, also when the mask is 0. -/
def execRnd (x : RegIdx) (kk : Byte) (s : State) : Result :=
  done ((nextRandom s).2.setReg x ((nextRandom s).1 &&& kk))

/-- `Fx07` LD Vx, DT (R202). -/
def execLdVxDt (x : RegIdx) (s : State) : Result := done (s.setReg x s.dt)

/-- `Fx15` LD DT, Vx (R203). -/
def execLdDtVx (x : RegIdx) (s : State) : Result := done (s.setDt (s.reg x))

/-- `Fx18` LD ST, Vx (R204). -/
def execLdStVx (x : RegIdx) (s : State) : Result := done (s.setSt (s.reg x))

end Sys2Proof.Machine
end

