-- ==== Sys2Proof/Machine/RegisterAlu.lean ====
section
/-!
DEFINITION. Register loads, arithmetic, logic and shifts (42_register_alu). Operands are read before any write (R160); arithmetic is
unsigned and wraps modulo 256 (R172); none of these can raise an error.
-/

namespace Sys2Proof.Machine

/-- `6xkk` LD Vx, kk (R161). -/
def execLdImm (x : RegIdx) (kk : Byte) (s : State) : Result := done (s.setReg x kk)

/-- `7xkk` ADD Vx, kk (R162): no flag effect. -/
def execAddImm (x : RegIdx) (kk : Byte) (s : State) : Result := done (s.setReg x (s.reg x + kk))

/-- `8xy0` LD Vx, Vy (R163). -/
def execLdReg (x y : RegIdx) (s : State) : Result := done (s.setReg x (s.reg y))

/-- `8xy1` OR Vx, Vy (R164): no flag effect. -/
def execOrReg (x y : RegIdx) (s : State) : Result := done (s.setReg x (s.reg x ||| s.reg y))

/-- `8xy2` AND Vx, Vy (R165): no flag effect. -/
def execAndReg (x y : RegIdx) (s : State) : Result := done (s.setReg x (s.reg x &&& s.reg y))

/-- `8xy3` XOR Vx, Vy (R166): no flag effect. -/
def execXorReg (x y : RegIdx) (s : State) : Result := done (s.setReg x (s.reg x ^^^ s.reg y))

/-- `8xy4` ADD Vx, Vy (R167): the result, then VF = carry. -/
def execAddReg (x y : RegIdx) (s : State) : Result :=
  done (writeResultThenFlag x (s.reg x + s.reg y) (carryOut (s.reg x) (s.reg y)) s)

/-- `8xy5` SUB Vx, Vy (R168): the result, then VF = no borrow. -/
def execSubReg (x y : RegIdx) (s : State) : Result :=
  done (writeResultThenFlag x (s.reg x - s.reg y) (noBorrow (s.reg x) (s.reg y)) s)

/-- `8xy6` SHR Vx (R169): VF = the bit shifted out, then the result; `y` is ignored. -/
def execShr (x _y : RegIdx) (s : State) : Result :=
  done (writeFlagThenResult x (s.reg x >>> 1) (lowBit (s.reg x)) s)

/-- `8xy7` SUBN Vx, Vy (R170): the result, then VF = no borrow. -/
def execSubnReg (x y : RegIdx) (s : State) : Result :=
  done (writeResultThenFlag x (s.reg y - s.reg x) (noBorrow (s.reg y) (s.reg x)) s)

/-- `8xyE` SHL Vx (R171): VF = the bit shifted out, then the result; `y` is ignored. -/
def execShl (x _y : RegIdx) (s : State) : Result :=
  done (writeFlagThenResult x (s.reg x <<< 1) (highBit (s.reg x)) s)

end Sys2Proof.Machine
end

