-- ==== Sys2Proof/Machine/Tick.lean ====
section
/-!
DEFINITION. The tick: Clock phase, wait branch, fetch, decode, PC advance, execution (40_cycle R120), on the inputs of the state.
-/

namespace Sys2Proof.Machine

/-- A tick starts with nothing sent, and with the Clock phase (40_cycle R121). -/
def beginTick (s : State) : State := clockPhase s.input.elapsed { s with sent := none }

/-- A tick ends by using up its inputs (log 2). -/
def endTick (s : State) : State := { s with inputs := s.inputs.tail, ticks := s.ticks + 1 }

/-- What follows a next state. -/
def thenNext (f : State → State) : Result → Result
  | .next s => .next (f s)
  | .fault r => .fault r
  | .refused r => .refused r

/-- The fetch (40_cycle R123): the word at PC. No alignment check (10_state R27, decision D7, log 10). -/
def fetch (s : State) : Except Fault Word := memReadWord s.mem s.pc.toNat

/-- Whether PC stays at the instruction until it completes: `Fx0A` only (40_cycle R125, 90_conflicts C1). -/
def defersPc (i : Instr) : Bool :=
  match i with
  | .ldVxK _ => true
  | .cls | .ret | .jp _ | .call _ | .seImm _ _ | .sneImm _ _ | .seReg _ _ | .ldImm _ _ | .addImm _ _ | .ldReg _ _ => false
  | .orReg _ _ | .andReg _ _ | .xorReg _ _ | .addReg _ _ | .subReg _ _ | .shr _ _ | .subnReg _ _ | .shl _ _ => false
  | .sneReg _ _ | .ldI _ | .jpV0 _ | .rnd _ _ | .drw _ _ _ | .skp _ | .sknp _ | .ldVxDt _ | .ldDtVx _ | .ldStVx _ => false
  | .addI _ | .ldF _ | .ldB _ | .storeRegs _ | .loadRegs _ => false

/-- The state an instruction executes in (40_cycle R125). -/
def enter (i : Instr) (s : State) : State := if defersPc i then s else advancePc s

/-- Decode and execute a fetched word (40_cycle R124 to R126): an undefined word raises after the PC advance (decision D9, log 12). -/
def runWord (w : Word) (s : State) : Result :=
  match decodeWord w with
  | some i => exec i (enter i s)
  | none => raise (.unknownOpcode w) (advancePc s)

/-- Everything a tick does after its Clock phase (40_cycle R120): the wait phase, or fetch, decode and execution. -/
def afterClock (s : State) : Result :=
  if s.wait then waitPhase s
  else
    match fetch s with
    | .ok w => runWord w s
    | .error f => raise f s

/-- `Tick(elapsed_ms)` (40_cycle R120), the inputs taken from the state. -/
def tick (s : State) : Result := thenNext endTick (afterClock (beginTick s))

/-- The address the next tick fetches at, or the reset entry where PC names no two bytes of memory. -/
def fetchableAddr (s : State) : Nat := if s.pc.toNat + 2 ≤ Config.memSize then s.pc.toNat else Config.resetPc.toNat

/-- The state made ready to fetch the given word next: the word stands where the next tick fetches (what the host does with
HOST_LOAD and HOST_SET_PC, 70_reset R276, R277), and no key wait is pending (log 22). -/
def placeWord (s : State) (w : Word) : State :=
  { s with
    mem := s.mem.writeBlock (fetchableAddr s) [highByte w, lowByte w]
    pc := BitVec.ofNat 16 (fetchableAddr s)
    wait := false }

end Sys2Proof.Machine
end

