-- ==== Sys2Proof/Machine/Step.lean ====
section
/-!
DEFINITION. The step of the machine: one tick (40_cycle R120).
-/

namespace Sys2Proof.Machine

/-- One step: one TICK transaction, on the next fixed inputs or on free ones (log 2). -/
def step (s : State) : Host.Outcome State Fault Refusal := tick s

/-- `s` with an instruction's word, numbered as spec/opcode_table.json numbers it, stored where `step` fetches next (log 22). -/
def State.withFetchWord (s : State) (nbits w : Nat) : State := placeWord s (BitVec.ofNat 16 (w % 2 ^ nbits))

end Sys2Proof.Machine
end

