-- ==== Sys2Proof/Machine/Ports.lean ====
section
/-!
DEFINITION. The host's side: the transactions of 00_scope R7 as functions of the state. They happen between ticks (70_reset R278), so
none of them is a move of `step` but TICK, which is `step` (log 22).
-/

namespace Sys2Proof.Machine

/-- A transaction the host may start (00_scope R7). -/
inductive HostCommand where
  /-- RESET (70_reset R270). -/
  | reset
  /-- TICK with its inputs (40_cycle R120). -/
  | tick (t : TickInput)
  /-- HOST_LOAD (70_reset R276). -/
  | load (base : Word) (data : List Byte)
  /-- HOST_SET_PC (70_reset R277). -/
  | setPc (v : Word)
  /-- HOST_GET_PC (70_reset R277). -/
  | getPc
  /-- HOST_SNAPSHOT (60_exceptions R258). -/
  | snapshot
  /-- SOUND_OBS (60_exceptions R256). -/
  | soundObs
deriving DecidableEq, Repr

/-- What the core answers. -/
inductive HostReply where
  | none
  | tickResult (r : Option TickResult)
  | loaded
  | loadError (f : Fault)
  | pc (v : Word)
  | bytes (b : List Byte)
  | soundTimer (v : Byte)
deriving DecidableEq, Repr

/-- RESET: every element of the core at its reset value; what the environment has fixed for coming ticks is not the core's and
stays (70_reset R270, log 27). -/
def hostReset (s : State) : State := { State.reset with inputs := s.inputs, ticks := s.ticks }

/-- TICK with given inputs (40_cycle R120): they go before whatever is fixed for later ticks. -/
def hostTick (t : TickInput) (s : State) : Result := step { s with inputs := t :: s.inputs }

/-- HOST_LOAD (70_reset R276): all or nothing. -/
def hostLoad (base : Word) (data : List Byte) (s : State) : Except Fault State :=
  match memWrite s.mem base.toNat data with
  | .ok m => .ok (s.setMem m)
  | .error f => .error f

/-- HOST_SET_PC (70_reset R277): stored as given. -/
def hostSetPc (v : Word) (s : State) : State := s.setPc v

/-- HOST_GET_PC (70_reset R277). -/
def hostGetPc (s : State) : Word := s.pc

/-- HOST_SNAPSHOT (60_exceptions R258): all of memory in address order. -/
def hostSnapshot (s : State) : List Byte := s.mem.readBlock 0 Config.memSize

/-- SOUND_OBS (60_exceptions R256, decision D23, log 31). -/
def soundObs (s : State) : Byte := s.st

/-- One host transaction: the state after it and the reply. -/
def transact (c : HostCommand) (s : State) : Host.Outcome (State × HostReply) Fault Refusal :=
  match c with
  | .reset => .next (hostReset s, .none)
  | .tick t =>
    match hostTick t s with
    | .next s' => .next (s', .tickResult s'.result)
    | .fault f => .fault f
    | .refused r => .refused r
  | .load base data =>
    match hostLoad base data s with
    | .ok s' => .next (s', .loaded)
    | .error f => .next (s, .loadError f)
  | .setPc v => .next (hostSetPc v s, .none)
  | .getPc => .next (s, .pc (hostGetPc s))
  | .snapshot => .next (s, .bytes (hostSnapshot s))
  | .soundObs => .next (s, .soundTimer (soundObs s))

/-- A session: transactions one after another, with every reply (70_reset R275: reset, load, set PC, tick). DESIGN CHOICE (log 32):
the end of a run is the end of this list, so the TICKs in it are the run's tick budget. The hardware gives no end of run and 70_reset
R285 leaves it to the model; an error ends nothing, and a jump to itself is not detected. -/
def session : List HostCommand → State → Host.Outcome (State × List HostReply) Fault Refusal
  | [], s => .next (s, [])
  | c :: cs, s =>
    match transact c s with
    | .next (s', r) =>
      match session cs s' with
      | .next (s'', rs) => .next (s'', r :: rs)
      | .fault f => .fault f
      | .refused q => .refused q
    | .fault f => .fault f
    | .refused q => .refused q

/-- The number of an error kind (60_exceptions R234, decision D10, log 13). -/
def faultCode : Fault → Nat
  | .addressOutOfRange _ _ => 1
  | .stackFault _ => 2
  | .unknownOpcode _ => 3

/-- The number of a tick's result (40_cycle R133, 60_exceptions R234, decision D11, log 13). -/
def resultCode : TickResult → Nat
  | .ok => 0
  | .waiting => 4
  | .error f => faultCode f

end Sys2Proof.Machine
end

