-- ==== Sys2Proof/Safety.lean ====
section
/-!
DEFINITION. What counts as a safe state and a safe run, and the vocabulary of frames: which parts of the state two states share.
-/

namespace Sys2Proof.Machine

/-- The invariant of every state the machine can reach: memory is in its canonical form, SP is even and inside the stack region
(10_state R30), LEFTOVER is below a timer period (10_state R34), the PRNG word is not zero (10_state R35). -/
structure Inv (s : State) : Prop where
  mem : s.mem.wf = true
  spBound : s.sp.toNat ≤ Config.stackBase
  spEven : s.sp.toNat % 2 = 0
  leftover : s.leftover < Config.tickPeriodMs
  prng : s.prng ≠ 0

/-- No error has been reported so far (60_exceptions R239: the record is the model's own). -/
def Safe (s : State) : Prop := s.firstError = none

/-- The cautious step of 93_implementation_defined U1, U2, U4 and U13: it stops at the first error instead of going on. -/
def guardedStep (s : State) : Result :=
  match step s with
  | .next t =>
    match t.result with
    | some (.error f) => .fault f
    | _ => .next t
  | .fault f => .fault f
  | .refused r => .refused r

/-- The parts of the state beside the general registers. `mem` stands for every byte of memory, `env` for the inputs of coming
ticks. -/
inductive Part where
  | mem | i | pc | sp | dt | st | leftover | prng | wait | waitx | sent | result | firstError | env
deriving DecidableEq, Repr

/-- Two states agree on a part. -/
def Part.same (s t : State) : Part → Prop
  | .mem => ∀ a, t.mem.read a = s.mem.read a
  | .i => t.i = s.i
  | .pc => t.pc = s.pc
  | .sp => t.sp = s.sp
  | .dt => t.dt = s.dt
  | .st => t.st = s.st
  | .leftover => t.leftover = s.leftover
  | .prng => t.prng = s.prng
  | .wait => t.wait = s.wait
  | .waitx => t.waitx = s.waitx
  | .sent => t.sent = s.sent
  | .result => t.result = s.result
  | .firstError => t.firstError = s.firstError
  | .env => t.inputs = s.inputs ∧ t.ticks = s.ticks

/-- From `s` to `t` nothing changes but the listed parts and the listed general registers. -/
def ChangesOnly (parts : List Part) (regs : List RegIdx) (s t : State) : Prop :=
  (∀ p, p ∉ parts → Part.same s t p) ∧ ∀ r, r ∉ regs → t.reg r = s.reg r

/-- Every byte of memory outside the `len` bytes at `addr` is the same. -/
def MemSameOutside (addr len : Nat) (s t : State) : Prop :=
  ∀ a, a < addr ∨ addr + len ≤ a → t.mem.read a = s.mem.read a

/-- The general registers an instruction may write, VF as a flag among them (10_state R23, R40). -/
def regWriteSet (i : Instr) : List RegIdx :=
  match i with
  | .ldImm x _ | .addImm x _ | .rnd x _ | .ldVxDt x | .ldVxK x => [x]
  | .ldReg x _ | .orReg x _ | .andReg x _ | .xorReg x _ => [x]
  | .addReg x _ | .subReg x _ | .shr x _ | .subnReg x _ | .shl x _ => [x, VF]
  | .drw _ _ _ => [VF]
  | .loadRegs x => (List.finRange 16).filter (fun r => r.val ≤ x.val)
  | .cls | .ret | .jp _ | .call _ | .jpV0 _ | .ldI _ => []
  | .seImm _ _ | .sneImm _ _ | .seReg _ _ | .sneReg _ _ | .skp _ | .sknp _ => []
  | .ldDtVx _ | .ldStVx _ | .addI _ | .ldF _ | .ldB _ | .storeRegs _ => []

/-- The six instructions that may skip (40_cycle R128). -/
def isSkip (i : Instr) : Bool :=
  match i with
  | .seImm _ _ | .sneImm _ _ | .seReg _ _ | .sneReg _ _ | .skp _ | .sknp _ => true
  | .cls | .ret | .jp _ | .call _ | .jpV0 _ | .ldI _ | .ldImm _ _ | .addImm _ _ | .ldReg _ _ => false
  | .orReg _ _ | .andReg _ _ | .xorReg _ _ | .addReg _ _ | .subReg _ _ | .shr _ _ | .subnReg _ _ | .shl _ _ => false
  | .rnd _ _ | .drw _ _ _ | .ldVxDt _ | .ldVxK _ | .ldDtVx _ | .ldStVx _ => false
  | .addI _ | .ldF _ | .ldB _ | .storeRegs _ | .loadRegs _ => false

/-- The word at PC is in memory and decodes to `i`: what the next tick fetches, if it fetches. -/
def FetchesInstr (s : State) (i : Instr) : Prop :=
  s.pc.toNat + 2 ≤ Config.memSize ∧
    decode [s.mem.read s.pc.toNat, s.mem.read (s.pc.toNat + 1)] = .ok (i, [])

/-- The tick from `s` executes `i`: no key wait is pending, and the fetch gives `i` (40_cycle R120). -/
def Executes (s : State) (i : Instr) : Prop := s.wait = false ∧ FetchesInstr s i

/-- The state in which the tick from `s` executes its instruction `i`: the Clock phase has run, and PC is advanced but for `Fx0A`. -/
def entered (i : Instr) (s : State) : State := enter i (beginTick s)

end Sys2Proof.Machine
end

