-- ==== Sys2Proof/Certificates/Slice0/Obligations.lean ====
section
/-!
DEFINITION. The statements for the provers. `exec i s` runs `i` in the state an instruction executes in: the Clock phase has run and
PC already holds the address of the following instruction, but for `Fx0A` (40_cycle R125); `StepRunsTheDecodedInstruction` ties it to
`step`. `s.input` is the tick's inputs, which are free (45_display_keypad R220): every statement holds for all of them. Where a
statement speaks of the fields `sent`, `result`, `firstError`, `inputs`, `ticks` (the last two are the part `env`), it speaks of the
model's own bookkeeping of the tick's inputs and outputs (DESIGN CHOICE, log 1, 2 and 27); that memory is a canonical list is the
model's too (DESIGN CHOICE, log 26).
-/

open Sys2Proof Sys2Proof.Machine

/-! ### Encoding (30_encoding) -/

/-- Decoding the bytes of an instruction gives the instruction back, whatever follows them. -/
def Obligations.DecodeOfEncodeIsTheInstruction : Prop :=
  ∀ (i : Instr) (rest : List Byte), decode (encodeBytes i ++ rest) = .ok (i, rest)

/-- A defined word has one meaning: encoding what it decodes to gives the word back, so no bit of it is dropped. -/
def Obligations.EncodeOfDecodeIsTheWord : Prop :=
  ∀ (w : Word) (i : Instr), decodeWord w = some i → encode i = w

/-- The decoder, written from the algorithm of R94, agrees with the masks and matches of R95: a decoded word matches the row of its
instruction, and a word that matches a row decodes to an instruction of that row. -/
def Obligations.DecodedExactlyWhenARowMatches : Prop :=
  ∀ w : Word,
    (∀ i, decodeWord w = some i → i.row.covers w = true) ∧
    (∀ r ∈ opcodeRows, r.covers w = true → ∃ i, decodeWord w = some i ∧ i.row = r)

/-- The undefined words are exactly the six sets of R96. -/
def Obligations.UndefinedWordsAreTheSixSets : Prop :=
  ∀ w : Word, decodeWord w = none ↔
    (fieldOp w = 0x0 ∧ w ≠ 0x00E0 ∧ w ≠ 0x00EE) ∨
    (fieldOp w = 0x5 ∧ fieldN w ≠ 0x0) ∨
    (fieldOp w = 0x8 ∧ fieldN w ∈ ([0x8, 0x9, 0xA, 0xB, 0xC, 0xD, 0xF] : List (BitVec 4))) ∨
    (fieldOp w = 0x9 ∧ fieldN w ≠ 0x0) ∨
    (fieldOp w = 0xE ∧ fieldKK w ∉ ([0x9E, 0xA1] : List Byte)) ∨
    (fieldOp w = 0xF ∧ fieldKK w ∉ ([0x07, 0x0A, 0x15, 0x18, 0x1E, 0x29, 0x33, 0x55, 0x65] : List Byte))

/-- Words of spec/95_test_vectors section 2.1 decode as it says. -/
def Obligations.WordsOfTheSpecDecode : Prop :=
  decodeWord 0x00E0 = some .cls ∧ decodeWord 0x00EE = some .ret ∧ decodeWord 0x10E0 = some (.jp 0x0E0) ∧
  decodeWord 0x5AB0 = some (.seReg 10 11) ∧ decodeWord 0x5AB1 = none ∧ decodeWord 0x8AB6 = some (.shr 10 11) ∧
  decodeWord 0x8AB8 = none ∧ decodeWord 0xBFFF = some (.jpV0 0xFFF) ∧ decodeWord 0xD000 = some (.drw 0 0 0) ∧
  decodeWord 0xEFA1 = some (.sknp 15) ∧ decodeWord 0xF165 = some (.loadRegs 1) ∧ decodeWord 0xF175 = none

/-! ### The step (40_cycle) -/

/-- A STEP RUNS THE DECODED INSTRUCTION. When no key wait is pending and the word at PC decodes to `i`, `exec i` answers a next state
from `entered i s`, and the step answers that state with the tick's inputs used up. `entered i s` is `s` with nothing sent, the Clock
phase done and PC advanced by 2, except that `Fx0A`, and only it, leaves PC where it is (R120, R125). That the inputs are a list in the
state, used up one a tick and counted by `ticks`, is the model's choice (DESIGN CHOICE, log 2). -/
def Obligations.StepRunsTheDecodedInstruction : Prop :=
  ∀ (s : State) (i : Instr), Executes s i →
    (∃ t, exec i (entered i s) = .next t ∧ step s = .next { t with inputs := s.inputs.tail, ticks := s.ticks + 1 }) ∧
    ((∃ x, i = .ldVxK x) → (entered i s).pc = s.pc) ∧
    ((∀ x, i ≠ .ldVxK x) → (entered i s).pc = s.pc + 2) ∧
    (entered i s).dt = (clockPhase s.input.elapsed s).dt ∧
    (entered i s).st = (clockPhase s.input.elapsed s).st ∧
    (entered i s).leftover = (clockPhase s.input.elapsed s).leftover ∧
    (entered i s).sent = none ∧
    ChangesOnly [.pc, .dt, .st, .leftover, .sent] [] s (entered i s)

/-- The fetch reads the two bytes at PC, high byte first, for every PC up to 0xFFE, odd or even (decision D7); beyond that the tick
raises AddressOutOfRange(PC, 2), with PC unchanged and nothing but the Clock phase done (R123, R26). -/
def Obligations.FetchReadsTwoBytesOrRaises : Prop :=
  (∀ s : State, s.pc.toNat ≤ 0xFFE →
    ∃ w, fetch s = .ok w ∧ highByte w = s.mem.read s.pc.toNat ∧ lowByte w = s.mem.read (s.pc.toNat + 1)) ∧
  (∀ s : State, s.wait = false → 0xFFE < s.pc.toNat →
    ∃ t, step s = .next t ∧ t.result = some (.error (.addressOutOfRange s.pc.toNat 2)) ∧ t.sent = none ∧
      ChangesOnly [.dt, .st, .leftover, .sent, .result, .firstError, .env] [] s t)

/-- An undefined word raises UnknownOpcode(w), with PC past it and nothing else done but the Clock phase (R126, R237; decision D9). -/
def Obligations.UndefinedWordRaisesUnknownOpcode : Prop :=
  ∀ s : State, s.wait = false → s.pc.toNat ≤ 0xFFE →
    decodeWord (joinBytes (s.mem.read s.pc.toNat) (s.mem.read (s.pc.toNat + 1))) = none →
    ∃ t, step s = .next t ∧
      t.result = some (.error (.unknownOpcode (joinBytes (s.mem.read s.pc.toNat) (s.mem.read (s.pc.toNat + 1))))) ∧
      t.pc = s.pc + 2 ∧ t.sent = none ∧
      ChangesOnly [.pc, .dt, .st, .leftover, .sent, .result, .firstError, .env] [] s t

/-- A tick in wait mode asks for a key. With one the pending `Fx0A` completes: the key number goes to V[WAITX], the wait ends, PC
moves past it. Without one nothing happens beside the Clock phase (R219; decisions D12, D29). -/
def Obligations.WaitTickCompletesOnAKey : Prop :=
  ∀ s : State, s.wait = true →
    (∀ k, s.input.key = some k →
      ∃ t, step s = .next t ∧ (t.reg s.waitx).toNat = k.toNat ∧ t.wait = false ∧ t.pc = s.pc + 2 ∧ t.result = some .ok ∧
        t.sent = some .keyEvent ∧
        ChangesOnly [.pc, .wait, .dt, .st, .leftover, .sent, .result, .env] [s.waitx] s t) ∧
    (s.input.key = none →
      ∃ t, step s = .next t ∧ t.result = some .waiting ∧ t.sent = some .keyEvent ∧
        ChangesOnly [.dt, .st, .leftover, .sent, .result, .env] [] s t)

/-! ### Rules of the whole machine -/

/-- There is no halted state: every tick answers a next state (R239; 70_reset R285). That an error is a next state too, and not a fault
outcome, is the model's choice (DESIGN CHOICE, log 1). -/
def Obligations.EveryStepAnswersANextState : Prop :=
  ∀ s : State, ∃ t, step s = .next t

/-- From every state that meets the invariant, a step gives a state that meets it: SP even and inside the stack region (10_state R30),
LEFTOVER below a period (R34; held as a natural number by the model's choice, DESIGN CHOICE, log 30), the PRNG word not zero (R35), and
the list of memory in its canonical form (the model's representation, DESIGN CHOICE, log 26). -/
def Obligations.StepKeepsTheInvariant : Prop :=
  ∀ s t : State, Inv s → step s = .next t → Inv t

/-- The reset state meets the invariant (10_state R39). Two of its parts are the model's choice: the canonical list form of memory
(DESIGN CHOICE, log 26), and the seed, which the spec leaves open and the model takes as an opaque nonzero word (DESIGN CHOICE, log 5). -/
def Obligations.ResetMeetsTheInvariant : Prop := Inv State.reset

/-- The Clock runs in every tick, whatever else the tick does: LEFTOVER is the sum modulo 16, and each timer has counted down by the
whole periods, unless the tick executed the instruction that writes it (R121, R251; decisions D4, D29). -/
def Obligations.EveryTickRunsTheClock : Prop :=
  ∀ s t : State, step s = .next t →
    t.leftover = (s.input.elapsed + s.leftover) % 16 ∧
    (t.dt.toNat = s.dt.toNat - (s.input.elapsed + s.leftover) / 16 ∨ ∃ x, Executes s (.ldDtVx x) ∧ t.dt = s.reg x) ∧
    (t.st.toNat = s.st.toNat - (s.input.elapsed + s.leftover) / 16 ∨ ∃ x, Executes s (.ldStVx x) ∧ t.st = s.reg x)

/-- A tick returns Waiting exactly when WAIT is 1 after it (R133, decision D11). -/
def Obligations.WaitingResultMeansWaitMode : Prop :=
  ∀ s t : State, step s = .next t → (t.result = some .waiting ↔ t.wait = true)

/-- The wait mode is entered only by an `Fx0A` that finds no key, and left only on a key (R260). -/
def Obligations.WaitModeChangesOnlyByTheKeyWait : Prop :=
  ∀ s t : State, step s = .next t →
    (s.wait = false → t.wait = true → ∃ x, Executes s (.ldVxK x) ∧ s.input.key = none ∧ t.waitx = x) ∧
    (s.wait = true → t.wait = false → ∃ k, s.input.key = some k)

/-- `Cxkk` is the only instruction that moves the PRNG word, by one generator step each time (R35, R201). -/
def Obligations.OnlyRandomMovesThePrng : Prop :=
  ∀ s t : State, step s = .next t →
    (∀ x kk, Executes s (.rnd x kk) → t.prng = xorshift s.prng) ∧
    ((∀ x kk, ¬ Executes s (.rnd x kk)) → t.prng = s.prng)

/-- Only a call and a return move SP, by 2 down and 2 up (R28). -/
def Obligations.OnlyCallAndReturnMoveSp : Prop :=
  ∀ s t : State, step s = .next t → t.sp ≠ s.sp →
    (∃ nnn, Executes s (.call nnn) ∧ t.sp = s.sp - 2) ∨ (Executes s .ret ∧ t.sp = s.sp + 2)

/-- Only `2nnn`, `Fx33` and `Fx55` store, and only to their own block (R70). -/
def Obligations.OnlyThreeInstructionsStore : Prop :=
  ∀ s t : State, step s = .next t →
    MemSameOutside 0 0 s t ∨
    (∃ nnn, Executes s (.call nnn) ∧ MemSameOutside (s.sp.toNat - 2) 2 s t) ∨
    (∃ x, Executes s (.ldB x) ∧ MemSameOutside s.i.toNat 3 s t) ∨
    (∃ x : RegIdx, Executes s (.storeRegs x) ∧ MemSameOutside s.i.toNat (x.val + 1) s t)

/-- A general register changes only if the executed instruction's write set holds it, or as the destination of a key wait that
completes on a key of this tick; so VF changes only by the six flag writers or as a named destination (R23, R40). -/
def Obligations.RegistersChangeOnlyInTheirWriteSet : Prop :=
  ∀ s t : State, step s = .next t → ∀ r, t.reg r ≠ s.reg r →
    (∃ i, Executes s i ∧ r ∈ regWriteSet i) ∨
    (s.wait = true ∧ (∃ k, s.input.key = some k) ∧ t.wait = false ∧ r = s.waitx)

/-- At most one request a tick, and only from `00E0`, `Dxyn`, `Ex9E`, `ExA1`, `Fx0A` and the wait phase, each its own (R220). -/
def Obligations.RequestsComeOnlyFromFiveInstructions : Prop :=
  ∀ s t : State, step s = .next t → ∀ r, t.sent = some r →
    (r = .keyEvent ∧ (s.wait = true ∨ ∃ x, Executes s (.ldVxK x))) ∨
    (r = .dispClear ∧ Executes s .cls) ∨
    (∃ x y n bytes, r = .dispDraw (s.reg x) (s.reg y) bytes ∧ bytes.length = n.toNat ∧ Executes s (.drw x y n)) ∨
    (∃ x, r = .keyIsDown (s.reg x) ∧ (Executes s (.skp x) ∨ Executes s (.sknp x)))

/-- A tick that ends in an error changes nothing but the timers, LEFTOVER and PC (and the model's records): no register, no memory, no
SP, no request; PC is the fetch address for a fetch error and past the word for every other (R237, decision D9). -/
def Obligations.ErrorTickLeavesTheRestUnchanged : Prop :=
  ∀ (s t : State) (f : Fault), step s = .next t → t.result = some (.error f) →
    ChangesOnly [.pc, .dt, .st, .leftover, .sent, .result, .firstError, .env] [] s t ∧ t.sent = none ∧
    ((0xFFE < s.pc.toNat ∧ f = .addressOutOfRange s.pc.toNat 2 ∧ t.pc = s.pc) ∨ (s.pc.toNat ≤ 0xFFE ∧ t.pc = s.pc + 2))

/-- The model's record of the first error is never overwritten, and every error is recorded (the model's own field, log 27; asked of a
model by R239). -/
def Obligations.FirstErrorIsSticky : Prop :=
  ∀ s t : State, step s = .next t →
    (∀ f, s.firstError = some f → t.firstError = some f) ∧
    (∀ f, s.firstError = none → t.result = some (.error f) → t.firstError = some f)

/-- Where PC stands after a tick that executes an instruction other than `00EE`, said with natural numbers, so that no sum is reduced:
at the instruction itself (an `Fx0A` that waits), two further, four further (a skip), at the target of `1nnn` or `2nnn`, or at
`nnn + V0`. So PC is at most 0x10FE, and neither the advance nor a skip wraps it at 65536 (R26). A wait tick keeps PC or adds 2 to it,
again without reduction, wherever PC is an address that a fetch allows. -/
def Obligations.PcStaysLowUnlessPopped : Prop :=
  (∀ (s t : State) (i : Instr), Executes s i → i ≠ .ret → step s = .next t →
    t.pc.toNat ≤ 0x10FE ∧
    (((∃ x, i = .ldVxK x) ∧ t.wait = true ∧ t.pc.toNat = s.pc.toNat) ∨
     t.pc.toNat = s.pc.toNat + 2 ∨
     (isSkip i = true ∧ t.pc.toNat = s.pc.toNat + 4) ∨
     (∃ nnn, (i = .jp nnn ∨ i = .call nnn) ∧ t.pc.toNat = nnn.toNat) ∨
     ∃ nnn, i = .jpV0 nnn ∧ t.pc.toNat = nnn.toNat + (s.reg 0).toNat)) ∧
  (∀ s t : State, s.wait = true → s.pc.toNat ≤ 0xFFE → step s = .next t →
    (t.wait = true ∧ t.pc.toNat = s.pc.toNat) ∨ (t.wait = false ∧ t.pc.toNat = s.pc.toNat + 2))

/-- ST is read by nothing inside the core: two states that differ only in ST step to states that differ only in ST (R33, R254). -/
def Obligations.SoundTimerInfluencesNothing : Prop :=
  ∀ (s t : State) (a : Byte), step s = .next t → ∃ b, step { s with st := a } = .next { t with st := b }

/-! ### The Clock (60_exceptions) -/

/-- `ClockPhase` (R251; decisions D4, D17). -/
def Obligations.ClockPhaseCountsWholePeriods : Prop :=
  ∀ (e : Nat) (s : State),
    (clockPhase e s).leftover = (e + s.leftover) % 16 ∧
    (clockPhase e s).dt.toNat = s.dt.toNat - (e + s.leftover) / 16 ∧
    (clockPhase e s).st.toNat = s.st.toNat - (e + s.leftover) / 16 ∧
    ChangesOnly [.dt, .st, .leftover] [] s (clockPhase e s)

/-- The decrement is `max(0, timer - ticks)` on integers: it never wraps, a timer at 0 stays 0, and a timer is 0 after any count that
is large enough (R252). -/
def Obligations.TimersSaturateAtZero : Prop :=
  ∀ (timer : Byte) (n : Nat),
    ((countDown timer n).toNat : Int) = max 0 ((timer.toNat : Int) - n) ∧
    countDown 0 n = 0 ∧ (timer.toNat ≤ n → countDown timer n = 0)

/-- Any split of a span of milliseconds into Clock phases gives the same state as one phase for the whole span (R253). -/
def Obligations.ClockSplitsAreExact : Prop :=
  ∀ (es : List Nat) (s : State), s.leftover < 16 → es.foldl (fun u e => clockPhase e u) s = clockPhase es.sum s

/-! ### Memory (20_memory) -/

/-- `MemRead` for `n >= 1` (R63): the block, lowest address first, or the error. -/
def Obligations.MemReadAnswersTheBlockOrRaises : Prop :=
  ∀ (m : Memory) (addr n : Nat), 1 ≤ n →
    (addr + n ≤ 4096 → ∃ bs, memRead m addr n = .ok bs ∧ bs.length = n ∧ ∀ j, j < n → bs[j]? = some (m.read (addr + j))) ∧
    (4096 < addr + n → memRead m addr n = .error (.addressOutOfRange addr n))

/-- `MemWrite` for `n >= 1` (R64): exactly the addressed bytes change, or the error. -/
def Obligations.MemWriteChangesExactlyTheBlock : Prop :=
  ∀ (m : Memory) (addr : Nat) (bs : List Byte), 1 ≤ bs.length →
    (addr + bs.length ≤ 4096 →
      ∃ m', memWrite m addr bs = .ok m' ∧ (∀ j, j < bs.length → some (m'.read (addr + j)) = bs[j]?) ∧
        ∀ a, a < addr ∨ addr + bs.length ≤ a → m'.read a = m.read a) ∧
    (4096 < addr + bs.length → memWrite m addr bs = .error (.addressOutOfRange addr bs.length))

/-- Words are big-endian both ways (R65 to R67). -/
def Obligations.WordsAreBigEndian : Prop :=
  (∀ (m : Memory) (addr : Nat) (w : Word), addr ≤ 0xFFE →
    ∃ m', memWriteWord m addr w = .ok m' ∧ (m'.read addr).toNat = w.toNat / 256 ∧ (m'.read (addr + 1)).toNat = w.toNat % 256 ∧
      (∀ a, a < addr ∨ addr + 2 ≤ a → m'.read a = m.read a) ∧ memReadWord m' addr = .ok w) ∧
  (∀ (m : Memory) (addr : Nat), addr ≤ 0xFFE →
    ∃ w, memReadWord m addr = .ok w ∧ w.toNat = (m.read addr).toNat * 256 + (m.read (addr + 1)).toNat) ∧
  (∀ (m : Memory) (addr : Nat) (w : Word), 0xFFE < addr →
    memWriteWord m addr w = .error (.addressOutOfRange addr 2) ∧ memReadWord m addr = .error (.addressOutOfRange addr 2))

/-- Canonical memories that read alike are equal: the list is determined by the 4096 bytes (the model's representation, log 26). -/
def Obligations.CanonicalMemoriesAreDeterminedByTheirBytes : Prop :=
  ∀ m m' : Memory, m.wf = true → m'.wf = true → (∀ a, m.read a = m'.read a) → m = m'

/-! ### Control transfer (41_control_flow) -/

/-- `1nnn` and `Bnnn` (R141, R147). -/
def Obligations.JumpsSetPc : Prop :=
  ∀ (s : State) (nnn : BitVec 12),
    (∃ t, exec (.jp nnn) s = .next t ∧ t.pc.toNat = nnn.toNat ∧ t.result = some .ok ∧ ChangesOnly [.pc, .result] [] s t) ∧
    (∃ t, exec (.jpV0 nnn) s = .next t ∧ t.pc.toNat = nnn.toNat + (s.reg 0).toNat ∧ t.result = some .ok ∧
      ChangesOnly [.pc, .result] [] s t)

/-- `3xkk`, `4xkk`, `5xy0`, `9xy0` (R143 to R146): two more on the advanced PC exactly when the test holds. -/
def Obligations.SkipsAddTwoWhenTheTestHolds : Prop :=
  ∀ (s : State) (x y : RegIdx) (kk : Byte),
    (∃ t, exec (.seImm x kk) s = .next t ∧ t.pc = (if s.reg x = kk then s.pc + 2 else s.pc) ∧ t.result = some .ok ∧
      ChangesOnly [.pc, .result] [] s t) ∧
    (∃ t, exec (.sneImm x kk) s = .next t ∧ t.pc = (if s.reg x = kk then s.pc else s.pc + 2) ∧ t.result = some .ok ∧
      ChangesOnly [.pc, .result] [] s t) ∧
    (∃ t, exec (.seReg x y) s = .next t ∧ t.pc = (if s.reg x = s.reg y then s.pc + 2 else s.pc) ∧ t.result = some .ok ∧
      ChangesOnly [.pc, .result] [] s t) ∧
    (∃ t, exec (.sneReg x y) s = .next t ∧ t.pc = (if s.reg x = s.reg y then s.pc else s.pc + 2) ∧ t.result = some .ok ∧
      ChangesOnly [.pc, .result] [] s t)

/-- `2nnn` with room on the stack (R142, R31; decision D6): the advanced PC is stored big-endian in the two bytes below SP, SP moves
down by 2, PC is `nnn`. -/
def Obligations.CallPushesThePc : Prop :=
  ∀ (s : State) (nnn : BitVec 12), 2 ≤ s.sp.toNat → s.sp.toNat ≤ 0x200 →
    ∃ t, exec (.call nnn) s = .next t ∧ t.pc.toNat = nnn.toNat ∧ t.sp.toNat = s.sp.toNat - 2 ∧
      (t.mem.read (s.sp.toNat - 2)).toNat = s.pc.toNat / 256 ∧ (t.mem.read (s.sp.toNat - 1)).toNat = s.pc.toNat % 256 ∧
      MemSameOutside (s.sp.toNat - 2) 2 s t ∧ t.result = some .ok ∧ ChangesOnly [.mem, .sp, .pc, .result] [] s t

/-- `00EE` with an entry on the stack (R140, R32; decision D6): PC takes all 16 bits of the two bytes at SP, SP moves up by 2, memory
is unchanged. -/
def Obligations.ReturnPopsThePc : Prop :=
  ∀ s : State, s.sp.toNat + 2 ≤ 0x200 →
    ∃ t, exec .ret s = .next t ∧
      t.pc.toNat = (s.mem.read s.sp.toNat).toNat * 256 + (s.mem.read (s.sp.toNat + 1)).toNat ∧
      t.sp.toNat = s.sp.toNat + 2 ∧ t.result = some .ok ∧ ChangesOnly [.sp, .pc, .result] [] s t

/-- A call on a full stack and a return on an empty one raise StackFault(SP) and do nothing else: PC keeps its advanced value, SP and
memory are unchanged (R140, R142, R232; decision D6). -/
def Obligations.StackFaultsOutsideTheRegion : Prop :=
  ∀ (s : State) (nnn : BitVec 12),
    (s.sp.toNat < 2 →
      ∃ t, exec (.call nnn) s = .next t ∧ t.result = some (.error (.stackFault s.sp)) ∧
        ChangesOnly [.result, .firstError] [] s t) ∧
    (0x200 < s.sp.toNat + 2 →
      ∃ t, exec .ret s = .next t ∧ t.result = some (.error (.stackFault s.sp)) ∧
        ChangesOnly [.result, .firstError] [] s t)

/-- A call followed by a return, from whatever PC, leaves PC at the address after the call and SP as before the call (R142, source
property). -/
def Obligations.CallThenReturnRestores : Prop :=
  ∀ (s : State) (nnn : BitVec 12), 2 ≤ s.sp.toNat → s.sp.toNat ≤ 0x200 →
    ∃ t, exec (.call nnn) s = .next t ∧
      ∀ p : Word, ∃ u, exec .ret { t with pc := p } = .next u ∧ u.pc = s.pc ∧ u.sp = s.sp

/-! ### Registers, arithmetic, logic, shifts (42_register_alu) -/

/-- `6xkk`, `7xkk`, `8xy0` (R161 to R163): no flag effect; with `x = 0xF` VF is an ordinary destination. -/
def Obligations.LoadsAndImmediateAdd : Prop :=
  ∀ (s : State) (x y : RegIdx) (kk : Byte),
    (∃ t, exec (.ldImm x kk) s = .next t ∧ t.reg x = kk ∧ t.result = some .ok ∧ ChangesOnly [.result] [x] s t) ∧
    (∃ t, exec (.addImm x kk) s = .next t ∧ (t.reg x).toNat = ((s.reg x).toNat + kk.toNat) % 256 ∧ t.result = some .ok ∧
      ChangesOnly [.result] [x] s t) ∧
    (∃ t, exec (.ldReg x y) s = .next t ∧ t.reg x = s.reg y ∧ t.result = some .ok ∧ ChangesOnly [.result] [x] s t)

/-- `8xy1`, `8xy2`, `8xy3` (R164 to R166): bit by bit, no flag effect. -/
def Obligations.LogicIsBitwise : Prop :=
  ∀ (s : State) (x y : RegIdx),
    (∃ t, exec (.orReg x y) s = .next t ∧ (∀ k, (t.reg x).getLsbD k = ((s.reg x).getLsbD k || (s.reg y).getLsbD k)) ∧
      t.result = some .ok ∧ ChangesOnly [.result] [x] s t) ∧
    (∃ t, exec (.andReg x y) s = .next t ∧ (∀ k, (t.reg x).getLsbD k = ((s.reg x).getLsbD k && (s.reg y).getLsbD k)) ∧
      t.result = some .ok ∧ ChangesOnly [.result] [x] s t) ∧
    (∃ t, exec (.xorReg x y) s = .next t ∧
      (∀ k, (t.reg x).getLsbD k = Bool.xor ((s.reg x).getLsbD k) ((s.reg y).getLsbD k)) ∧
      t.result = some .ok ∧ ChangesOnly [.result] [x] s t)

/-- `8xy4` (R167): the sum modulo 256 and the carry; with `x = 0xF` the carry remains, in either reading of the write order (93 U5b). -/
def Obligations.AddSetsCarry : Prop :=
  ∀ (s : State) (x y : RegIdx),
    ∃ t, exec (.addReg x y) s = .next t ∧
      (x ≠ VF → (t.reg x).toNat = ((s.reg x).toNat + (s.reg y).toNat) % 256) ∧
      (t.reg VF).toNat = (if (s.reg x).toNat + (s.reg y).toNat > 255 then 1 else 0) ∧
      t.result = some .ok ∧ ChangesOnly [.result] [x, VF] s t

/-- `8xy5` and `8xy7` (R168, R170): the difference modulo 256, and VF = 1 exactly when there is no borrow; with `x = 0xF` the flag
remains, in either reading of the write order (93 U5b). -/
def Obligations.SubtractsSetNoBorrow : Prop :=
  ∀ (s : State) (x y : RegIdx),
    (∃ t, exec (.subReg x y) s = .next t ∧
      (x ≠ VF → ((t.reg x).toNat : Int) = ((s.reg x).toNat - (s.reg y).toNat : Int) % 256) ∧
      (t.reg VF).toNat = (if (s.reg x).toNat ≥ (s.reg y).toNat then 1 else 0) ∧
      t.result = some .ok ∧ ChangesOnly [.result] [x, VF] s t) ∧
    (∃ t, exec (.subnReg x y) s = .next t ∧
      (x ≠ VF → ((t.reg x).toNat : Int) = ((s.reg y).toNat - (s.reg x).toNat : Int) % 256) ∧
      (t.reg VF).toNat = (if (s.reg y).toNat ≥ (s.reg x).toNat then 1 else 0) ∧
      t.result = some .ok ∧ ChangesOnly [.result] [x, VF] s t)

/-- `8xy6` and `8xyE` (R169, R171; with `x = 0xF` the shifted value remains by decision D8, log 11): shift of Vx by one, the bit shifted out to
VF, `y` ignored. -/
def Obligations.ShiftsMoveOneBit : Prop :=
  ∀ (s : State) (x y : RegIdx),
    (∃ t, exec (.shr x y) s = .next t ∧ (t.reg x).toNat = (s.reg x).toNat / 2 ∧
      (x ≠ VF → (t.reg VF).toNat = (s.reg x).toNat % 2) ∧ t.result = some .ok ∧ ChangesOnly [.result] [x, VF] s t) ∧
    (∃ t, exec (.shl x y) s = .next t ∧ (t.reg x).toNat = (s.reg x).toNat * 2 % 256 ∧
      (x ≠ VF → (t.reg VF).toNat = (s.reg x).toNat / 128) ∧ t.result = some .ok ∧ ChangesOnly [.result] [x, VF] s t)

/-! ### Index and memory (43_index_memory) -/

/-- `Annn` and `Fx1E` (R180, R181): I is loaded, or moved modulo 65536, with no flag effect. -/
def Obligations.IndexLoadAndAdd : Prop :=
  ∀ (s : State) (x : RegIdx) (nnn : BitVec 12),
    (∃ t, exec (.ldI nnn) s = .next t ∧ t.i.toNat = nnn.toNat ∧ t.result = some .ok ∧ ChangesOnly [.i, .result] [] s t) ∧
    (∃ t, exec (.addI x) s = .next t ∧ t.i.toNat = (s.i.toNat + (s.reg x).toNat) % 65536 ∧ t.result = some .ok ∧
      ChangesOnly [.i, .result] [] s t)

/-- `Fx29` (R182; decisions D3 and D14): the address of digit Vx for whatever FONT_BASE is, on all 8 bits of Vx; memory is not
touched. -/
def Obligations.FontAddressIsComputed : Prop :=
  ∀ (s : State) (x : RegIdx),
    ∃ t, exec (.ldF x) s = .next t ∧ t.i.toNat = (Config.fontBase.toNat + 5 * (s.reg x).toNat) % 65536 ∧ t.result = some .ok ∧
      ChangesOnly [.i, .result] [] s t

/-- `Fx33` in range (R183; decision D15): hundreds, tens and ones at I, I+1, I+2; nothing else changes. -/
def Obligations.BcdStoresThreeDigits : Prop :=
  ∀ (s : State) (x : RegIdx), s.i.toNat ≤ 0xFFD →
    ∃ t, exec (.ldB x) s = .next t ∧
      (t.mem.read s.i.toNat).toNat = (s.reg x).toNat / 100 ∧
      (t.mem.read (s.i.toNat + 1)).toNat = (s.reg x).toNat / 10 % 10 ∧
      (t.mem.read (s.i.toNat + 2)).toNat = (s.reg x).toNat % 10 ∧
      MemSameOutside s.i.toNat 3 s t ∧ t.result = some .ok ∧ ChangesOnly [.mem, .result] [] s t

/-- `Fx55` in range (R184; I unchanged by decision D27): V0 to Vx at I and on; nothing else changes. -/
def Obligations.StoreRegistersWritesTheBlock : Prop :=
  ∀ (s : State) (x : RegIdx), s.i.toNat + x.val + 1 ≤ 4096 →
    ∃ t, exec (.storeRegs x) s = .next t ∧
      (∀ r : RegIdx, r.val ≤ x.val → t.mem.read (s.i.toNat + r.val) = s.reg r) ∧
      MemSameOutside s.i.toNat (x.val + 1) s t ∧ t.result = some .ok ∧ ChangesOnly [.mem, .result] [] s t

/-- `Fx65` in range (R185; I unchanged by decision D27): V0 to Vx from I and on; the registers above Vx are untouched. -/
def Obligations.LoadRegistersReadsTheBlock : Prop :=
  ∀ (s : State) (x : RegIdx), s.i.toNat + x.val + 1 ≤ 4096 →
    ∃ t, exec (.loadRegs x) s = .next t ∧
      (∀ r : RegIdx, r.val ≤ x.val → t.reg r = s.mem.read (s.i.toNat + r.val)) ∧
      (∀ r : RegIdx, x.val < r.val → t.reg r = s.reg r) ∧
      t.result = some .ok ∧ ChangesOnly [.result] ((List.finRange 16).filter (fun r => r.val ≤ x.val)) s t

/-- A block that does not fit makes `Fx33`, `Fx55`, `Fx65` and `Dxyn` raise AddressOutOfRange(I, len), and then nothing is written, read
into a register or sent (R231, R237; decisions D15, D20). -/
def Obligations.BlocksOutsideMemoryRaise : Prop :=
  ∀ (s : State) (x y : RegIdx) (n : BitVec 4),
    (0xFFD < s.i.toNat →
      ∃ t, exec (.ldB x) s = .next t ∧ t.result = some (.error (.addressOutOfRange s.i.toNat 3)) ∧
        ChangesOnly [.result, .firstError] [] s t) ∧
    (4096 < s.i.toNat + x.val + 1 →
      ∃ t, exec (.storeRegs x) s = .next t ∧ t.result = some (.error (.addressOutOfRange s.i.toNat (x.val + 1))) ∧
        ChangesOnly [.result, .firstError] [] s t) ∧
    (4096 < s.i.toNat + x.val + 1 →
      ∃ t, exec (.loadRegs x) s = .next t ∧ t.result = some (.error (.addressOutOfRange s.i.toNat (x.val + 1))) ∧
        ChangesOnly [.result, .firstError] [] s t) ∧
    (1 ≤ n.toNat → 4096 < s.i.toNat + n.toNat →
      ∃ t, exec (.drw x y n) s = .next t ∧ t.result = some (.error (.addressOutOfRange s.i.toNat n.toNat)) ∧
        ChangesOnly [.result, .firstError] [] s t)

/-- Storing V0 to Vx at I and loading them back from the same I restores them, whatever the registers held in between (R185, source
property; R81 (d)). -/
def Obligations.StoreThenLoadRestoresRegisters : Prop :=
  ∀ (s : State) (x : RegIdx), s.i.toNat + x.val + 1 ≤ 4096 →
    ∃ t, exec (.storeRegs x) s = .next t ∧
      ∀ v : Vector Byte 16, ∃ u, exec (.loadRegs x) { t with v := v } = .next u ∧ ∀ r : RegIdx, r.val ≤ x.val → u.reg r = s.reg r

/-! ### Random and timers (44_random_timers) -/

/-- `Cxkk` (R201, R200; decision D18): the generator advances once, 13 left and 5 left within 32 bits, 17 right with zeros entering,
each step on the result of the one before, and Vx takes the low byte of the new word, masked. -/
def Obligations.RandomIsMaskedAndAdvances : Prop :=
  ∀ (s : State) (x : RegIdx) (kk : Byte),
    ∃ (t : State) (a b : Nat), exec (.rnd x kk) s = .next t ∧
      a = s.prng.toNat ^^^ (s.prng.toNat * 2 ^ 13 % 2 ^ 32) ∧ b = a ^^^ (a / 2 ^ 17) ∧
      t.prng.toNat = b ^^^ (b * 2 ^ 5 % 2 ^ 32) ∧ (t.reg x).toNat = (t.prng.toNat % 256) &&& kk.toNat ∧
      t.result = some .ok ∧ ChangesOnly [.prng, .result] [x] s t

/-- `Fx07`, `Fx15`, `Fx18` (R202 to R204). -/
def Obligations.TimerInstructionsMoveBytes : Prop :=
  ∀ (s : State) (x : RegIdx),
    (∃ t, exec (.ldVxDt x) s = .next t ∧ t.reg x = s.dt ∧ t.result = some .ok ∧ ChangesOnly [.result] [x] s t) ∧
    (∃ t, exec (.ldDtVx x) s = .next t ∧ t.dt = s.reg x ∧ t.result = some .ok ∧ ChangesOnly [.dt, .result] [] s t) ∧
    (∃ t, exec (.ldStVx x) s = .next t ∧ t.st = s.reg x ∧ t.result = some .ok ∧ ChangesOnly [.st, .result] [] s t)

/-! ### Display, keypad and key wait (45_display_keypad) -/

/-- `00E0` (R210): one DISP_CLEAR and nothing else. -/
def Obligations.ClearScreenOnlySends : Prop :=
  ∀ s : State, ∃ t, exec .cls s = .next t ∧ t.sent = some .dispClear ∧ t.result = some .ok ∧ ChangesOnly [.sent, .result] [] s t

/-- `Dxyn` with its sprite in memory, or with `n = 0` wherever I points (R213; decisions D16, D20, D26): the full bytes of Vx and Vy and the
`n` bytes at I are sent, and VF takes the reply. -/
def Obligations.DrawSendsTheSpriteAndTakesTheReply : Prop :=
  ∀ (s : State) (x y : RegIdx) (n : BitVec 4), (n.toNat = 0 ∨ s.i.toNat + n.toNat ≤ 4096) →
    ∃ t bytes, exec (.drw x y n) s = .next t ∧ t.sent = some (.dispDraw (s.reg x) (s.reg y) bytes) ∧
      bytes.length = n.toNat ∧ (∀ j, j < n.toNat → bytes[j]? = some (s.mem.read (s.i.toNat + j))) ∧
      (t.reg VF).toNat = (if s.input.collided then 1 else 0) ∧
      t.result = some .ok ∧ ChangesOnly [.sent, .result] [VF] s t

/-- `Ex9E` and `ExA1` (R215, R218): the byte of Vx is sent, and the reply decides the skip. -/
def Obligations.KeySkipsFollowTheReply : Prop :=
  ∀ (s : State) (x : RegIdx),
    (∃ t, exec (.skp x) s = .next t ∧ t.sent = some (.keyIsDown (s.reg x)) ∧
      t.pc = (if s.input.down then s.pc + 2 else s.pc) ∧ t.result = some .ok ∧ ChangesOnly [.pc, .sent, .result] [] s t) ∧
    (∃ t, exec (.sknp x) s = .next t ∧ t.sent = some (.keyIsDown (s.reg x)) ∧
      t.pc = (if s.input.down then s.pc else s.pc + 2) ∧ t.result = some .ok ∧ ChangesOnly [.pc, .sent, .result] [] s t)

/-- `Fx0A` (R217; decision D12), PC being its own address: with a key it completes at once, without one it enters the wait mode and PC
stays. -/
def Obligations.KeyWaitCompletesOrWaits : Prop :=
  ∀ (s : State) (x : RegIdx),
    (∀ k, s.input.key = some k →
      ∃ t, exec (.ldVxK x) s = .next t ∧ (t.reg x).toNat = k.toNat ∧ t.pc = s.pc + 2 ∧ t.result = some .ok ∧
        t.sent = some .keyEvent ∧ ChangesOnly [.pc, .sent, .result] [x] s t) ∧
    (s.input.key = none →
      ∃ t, exec (.ldVxK x) s = .next t ∧ t.wait = true ∧ t.waitx = x ∧ t.result = some .waiting ∧
        t.sent = some .keyEvent ∧ ChangesOnly [.wait, .waitx, .sent, .result] [] s t)

/-! ### The host's side (70_reset, 60_exceptions) -/

/-- What RESET leaves in the core (R39, R270; decisions D1, D2, D5): every address reads 0, every register is 0, PC is RESET_PC (0x200
here, the default, log 4), SP is 0x200, timers, LEFTOVER and the wait mode are 0, the PRNG word is a nonzero seed. -/
def Obligations.ResetValues : Prop :=
  ∀ s : State,
    (∀ a, (hostReset s).mem.read a = 0) ∧ (∀ r, (hostReset s).reg r = 0) ∧ (hostReset s).i = 0 ∧ (hostReset s).pc = 0x200 ∧
    (hostReset s).sp = 0x200 ∧ (hostReset s).dt = 0 ∧ (hostReset s).st = 0 ∧ (hostReset s).leftover = 0 ∧
    (hostReset s).wait = false ∧ (hostReset s).waitx = 0 ∧ (hostReset s).prng = Config.prngSeed ∧ (hostReset s).prng ≠ 0

/-- HOST_LOAD (R276): all the bytes at the base, or the error and no change; empty data does nothing. -/
def Obligations.HostLoadIsAllOrNothing : Prop :=
  ∀ (s : State) (base : Word) (data : List Byte),
    (base.toNat + data.length ≤ 4096 →
      ∃ t, hostLoad base data s = .ok t ∧ (∀ j, j < data.length → some (t.mem.read (base.toNat + j)) = data[j]?) ∧
        MemSameOutside base.toNat data.length s t ∧ ChangesOnly [.mem] [] s t) ∧
    (1 ≤ data.length → 4096 < base.toNat + data.length →
      hostLoad base data s = .error (.addressOutOfRange base.toNat data.length) ∧
      transact (.load base data) s = .next (s, .loadError (.addressOutOfRange base.toNat data.length))) ∧
    hostLoad base [] s = .ok s

/-- HOST_SET_PC and HOST_GET_PC (R277). -/
def Obligations.HostSetsAndGetsThePc : Prop :=
  ∀ (s : State) (v : Word),
    (hostSetPc v s).pc = v ∧ ChangesOnly [.pc] [] s (hostSetPc v s) ∧ hostGetPc s = s.pc ∧
    transact .getPc s = .next (s, .pc s.pc)

/-- HOST_SNAPSHOT (R258; decision D22): the 4096 bytes in address order, and no change. -/
def Obligations.SnapshotIsAllOfMemory : Prop :=
  ∀ s : State,
    (hostSnapshot s).length = 4096 ∧ (∀ a, a < 4096 → (hostSnapshot s)[a]? = some (s.mem.read a)) ∧
    transact .snapshot s = .next (s, .bytes (hostSnapshot s))
end

