-- ==== Sys2Proof/Laws/Decode.lean ====
section
/-!
SUPPORT. The numeric value of every field and of every form, so that a fact about encodings is a fact about quotients and remainders;
and the masks of the opcode map in the same terms.
-/

namespace Sys2Proof

/-! ### Fields and forms as numbers -/

theorem toNat_append_eq {w v : Nat} (a : BitVec w) (b : BitVec v) : (a ++ b).toNat = a.toNat * 2 ^ v + b.toNat := by
  rw [BitVec.toNat_append, ← Nat.shiftLeft_add_eq_or_of_lt b.isLt, Nat.shiftLeft_eq]

theorem toNat_extract_eq {w : Nat} (a : BitVec w) (k n : Nat) : (a.extractLsb' k n).toNat = a.toNat / 2 ^ k % 2 ^ n := by
  rw [BitVec.extractLsb'_toNat, Nat.shiftRight_eq_div_pow]

theorem fieldOp_toNat (w : Word) : (fieldOp w).toNat = w.toNat / 4096 % 16 := toNat_extract_eq w 12 4
theorem fieldX_toNat (w : Word) : (fieldX w).toNat = w.toNat / 256 % 16 := toNat_extract_eq w 8 4
theorem fieldY_toNat (w : Word) : (fieldY w).toNat = w.toNat / 16 % 16 := toNat_extract_eq w 4 4
theorem fieldN_toNat (w : Word) : (fieldN w).toNat = w.toNat / 1 % 16 := toNat_extract_eq w 0 4
theorem fieldKK_toNat (w : Word) : (fieldKK w).toNat = w.toNat / 1 % 256 := toNat_extract_eq w 0 8
theorem fieldNNN_toNat (w : Word) : (fieldNNN w).toNat = w.toNat / 1 % 4096 := toNat_extract_eq w 0 12
theorem highByte_toNat (w : Word) : (highByte w).toNat = w.toNat / 256 % 256 := toNat_extract_eq w 8 8
theorem lowByte_toNat (w : Word) : (lowByte w).toNat = w.toNat / 1 % 256 := toNat_extract_eq w 0 8

@[simp] theorem regField_toNat (x : RegIdx) : (regField x).toNat = x.val := rfl
@[simp] theorem regOf_val (f : BitVec 4) : (regOf f).val = f.toNat := rfl
@[simp] theorem regOf_regField (x : RegIdx) : regOf (regField x) = x := rfl
@[simp] theorem regField_regOf (f : BitVec 4) : regField (regOf f) = f := rfl

theorem formNNN_toNat (op : BitVec 4) (a : BitVec 12) : (formNNN op a).toNat = op.toNat * 4096 + a.toNat :=
  toNat_append_eq op a

theorem formXKK_toNat (op : BitVec 4) (x : RegIdx) (kk : Byte) :
    (formXKK op x kk).toNat = (op.toNat * 16 + x.val) * 256 + kk.toNat := by
  have h1 := toNat_append_eq (op ++ regField x) kk
  have h2 := toNat_append_eq op (regField x)
  rw [h2] at h1
  exact h1

theorem formXYN_toNat (op : BitVec 4) (x y : RegIdx) (n : BitVec 4) :
    (formXYN op x y n).toNat = ((op.toNat * 16 + x.val) * 16 + y.val) * 16 + n.toNat := by
  have h1 := toNat_append_eq (op ++ regField x ++ regField y) n
  have h2 := toNat_append_eq (op ++ regField x) (regField y)
  have h3 := toNat_append_eq op (regField x)
  rw [h2, h3] at h1
  exact h1

/-! ### The masks of the opcode map -/

theorem mask_op (w : Word) : w &&& 0xF000 = formXYN (fieldOp w) 0 0 0 := by
  apply BitVec.eq_of_toNat_eq
  have h1 : w.toNat &&& 0xF000 = (w.toNat >>> 12) <<< 12 := by
    apply Nat.eq_of_testBit_eq
    intro k
    by_cases hk : k < 16
    · interval_cases k <;> simp [Nat.testBit_shiftLeft, Nat.testBit_shiftRight] <;> (intro _; decide)
    · have hw : w.toNat.testBit k = false :=
        Nat.testBit_lt_two_pow (Nat.lt_of_lt_of_le w.isLt (Nat.pow_le_pow_right (by omega) (by omega)))
      have h12 : 12 + (k - 12) = k := by omega
      simp [Nat.testBit_shiftLeft, Nat.testBit_shiftRight, hw, h12]
  rw [BitVec.toNat_and, formXYN_toNat, fieldOp_toNat]
  show w.toNat &&& 0xF000 = _
  rw [h1, Nat.shiftLeft_eq, Nat.shiftRight_eq_div_pow]
  have := w.isLt
  simp
  omega

theorem mask_low (w : Word) : w &&& 0x000F = formXYN 0 0 0 (fieldN w) := by
  apply BitVec.eq_of_toNat_eq
  rw [BitVec.toNat_and, formXYN_toNat, fieldN_toNat]
  show w.toNat &&& (2 ^ 4 - 1) = _
  rw [Nat.and_two_pow_sub_one_eq_mod]
  simp

theorem mask_lowByte (w : Word) : w &&& 0x00FF = formXKK 0 0 (fieldKK w) := by
  apply BitVec.eq_of_toNat_eq
  rw [BitVec.toNat_and, formXKK_toNat, fieldKK_toNat]
  show w.toNat &&& (2 ^ 8 - 1) = _
  rw [Nat.and_two_pow_sub_one_eq_mod]
  simp

/-- The mask 0xF00F: the first and the last nibble. -/
theorem mask_op_low (w : Word) : w &&& 0xF00F = (w &&& 0xF000) ||| (w &&& 0x000F) := by
  rw [← BitVec.and_or_distrib_left]; rfl

/-- The mask 0xF0FF: the first nibble and the last byte. -/
theorem mask_op_lowByte (w : Word) : w &&& 0xF0FF = (w &&& 0xF000) ||| (w &&& 0x00FF) := by
  rw [← BitVec.and_or_distrib_left]; rfl

/-! ### The fields of each form -/

@[simp] theorem fieldOp_formNNN (op : BitVec 4) (a : BitVec 12) : fieldOp (formNNN op a) = op := by
  apply BitVec.eq_of_toNat_eq; rw [fieldOp_toNat, formNNN_toNat]; omega
@[simp] theorem fieldNNN_formNNN (op : BitVec 4) (a : BitVec 12) : fieldNNN (formNNN op a) = a := by
  apply BitVec.eq_of_toNat_eq; rw [fieldNNN_toNat, formNNN_toNat]; omega
@[simp] theorem fieldOp_formXKK (op : BitVec 4) (x : RegIdx) (kk : Byte) : fieldOp (formXKK op x kk) = op := by
  apply BitVec.eq_of_toNat_eq; rw [fieldOp_toNat, formXKK_toNat]; omega
@[simp] theorem fieldX_formXKK (op : BitVec 4) (x : RegIdx) (kk : Byte) : fieldX (formXKK op x kk) = regField x := by
  apply BitVec.eq_of_toNat_eq; rw [fieldX_toNat, formXKK_toNat, regField_toNat]; omega
@[simp] theorem fieldKK_formXKK (op : BitVec 4) (x : RegIdx) (kk : Byte) : fieldKK (formXKK op x kk) = kk := by
  apply BitVec.eq_of_toNat_eq; rw [fieldKK_toNat, formXKK_toNat]; omega
@[simp] theorem fieldOp_formXYN (op : BitVec 4) (x y : RegIdx) (n : BitVec 4) : fieldOp (formXYN op x y n) = op := by
  apply BitVec.eq_of_toNat_eq; rw [fieldOp_toNat, formXYN_toNat]; omega
@[simp] theorem fieldX_formXYN (op : BitVec 4) (x y : RegIdx) (n : BitVec 4) : fieldX (formXYN op x y n) = regField x := by
  apply BitVec.eq_of_toNat_eq; rw [fieldX_toNat, formXYN_toNat, regField_toNat]; omega
@[simp] theorem fieldY_formXYN (op : BitVec 4) (x y : RegIdx) (n : BitVec 4) : fieldY (formXYN op x y n) = regField y := by
  apply BitVec.eq_of_toNat_eq; rw [fieldY_toNat, formXYN_toNat, regField_toNat]; omega
@[simp] theorem fieldN_formXYN (op : BitVec 4) (x y : RegIdx) (n : BitVec 4) : fieldN (formXYN op x y n) = n := by
  apply BitVec.eq_of_toNat_eq; rw [fieldN_toNat, formXYN_toNat]; omega

end Sys2Proof
end

