-- ==== Sys2Proof/Laws/Memory.lean ====
section
/-!
SUPPORT. The laws of memory as data (20_memory R81), for every list, canonical or not; and that every operation keeps the canonical
form.
-/

namespace Sys2Proof.Machine.Memory

/-! ### Reading after writing -/

theorem without_cons (a k : Nat) (b : Byte) (m : Memory) :
    without ((a, b) :: m) k = if a = k then m.without k else (a, b) :: m.without k := by
  by_cases h : a = k <;> simp [without, h]

theorem read_without_same (m : Memory) (k : Nat) : read (m.without k) k = 0 := by
  induction m with
  | nil => rfl
  | cons c m ih =>
    obtain ⟨a, b⟩ := c
    rw [without_cons]
    split
    · exact ih
    · simpa only [read, if_neg ‹_›] using ih

theorem read_without_other (m : Memory) {k j : Nat} (h : j ≠ k) : read (m.without k) j = m.read j := by
  induction m with
  | nil => rfl
  | cons c m ih =>
    obtain ⟨a, b⟩ := c
    rw [without_cons]
    split
    next e => rw [ih, read, if_neg (by omega)]
    next e => simp only [read, ih]

theorem read_place_same (k : Nat) (b : Byte) (m : Memory) (h : ∀ c ∈ m, c.1 ≠ k) : read (place k b m) k = b := by
  induction m with
  | nil => simp [place, read]
  | cons c m ih =>
    obtain ⟨a, d⟩ := c
    have ha : a ≠ k := h (a, d) (by simp)
    simp only [place]
    split
    · simp [read]
    · simp only [read, ha, if_false]
      exact ih fun c hc => h c (by simp [hc])

theorem read_place_other {k j : Nat} (b : Byte) (m : Memory) (h : j ≠ k) : read (place k b m) j = m.read j := by
  induction m with
  | nil => simp [place, read, Ne.symm h]
  | cons c m ih =>
    obtain ⟨a, d⟩ := c
    simp only [place]
    split
    · simp [read, Ne.symm h]
    · simp only [read, ih]

theorem without_ne (m : Memory) (k : Nat) : ∀ c ∈ m.without k, c.1 ≠ k := by
  intro c hc
  simpa using (List.mem_filter.mp hc).2

@[simp] theorem read_write_same (m : Memory) (k : Nat) (b : Byte) : (m.write k b).read k = b := by
  unfold write
  split
  · simp [read_without_same, *]
  · exact read_place_same k b _ (without_ne m k)

theorem read_write_other (m : Memory) {k j : Nat} (b : Byte) (h : j ≠ k) : (m.write k b).read j = m.read j := by
  unfold write
  split
  · exact read_without_other m h
  · rw [read_place_other b _ h, read_without_other m h]

/-- A block store leaves every byte outside the block alone (20_memory R81 (b)). -/
theorem read_writeBlock_outside (bs : List Byte) (m : Memory) (k j : Nat) (h : j < k ∨ k + bs.length ≤ j) :
    (m.writeBlock k bs).read j = m.read j := by
  induction bs generalizing m k with
  | nil => rfl
  | cons b bs ih =>
    simp only [List.length_cons] at h
    rw [writeBlock, ih _ _ (by omega), read_write_other _ _ (by omega)]

/-- A block store puts each byte in its place (20_memory R64). -/
theorem read_writeBlock_inside (bs : List Byte) (m : Memory) (k n : Nat) (h : n < bs.length) :
    (m.writeBlock k bs).read (k + n) = bs[n] := by
  induction bs generalizing m k n with
  | nil => simp at h
  | cons b bs ih =>
    rw [writeBlock]
    cases n with
    | zero => rw [Nat.add_zero, read_writeBlock_outside _ _ _ _ (by omega)]; simp
    | succ n =>
      have := ih (m.write k b) (k + 1) n (by simpa using h)
      rw [show k + (n + 1) = k + 1 + n by omega, this]; simp

@[simp] theorem length_readBlock (m : Memory) (k n : Nat) : (m.readBlock k n).length = n := by
  induction n generalizing k with
  | zero => rfl
  | succ n ih => simp [readBlock, ih]

theorem getElem_readBlock (m : Memory) (k n j : Nat) (h : j < (m.readBlock k n).length) :
    (m.readBlock k n)[j] = m.read (k + j) := by
  induction n generalizing k j with
  | zero => simp [readBlock] at h
  | succ n ih =>
    cases j with
    | zero => simp [readBlock]
    | succ j =>
      simp only [readBlock, List.getElem_cons_succ]
      rw [ih (k + 1) j (by simpa [readBlock] using h)]
      congr 1; omega

/-- Two memories that read alike on a block give the same block. -/
theorem readBlock_congr (m m' : Memory) (k n : Nat) (h : ∀ j, j < n → m'.read (k + j) = m.read (k + j)) :
    m'.readBlock k n = m.readBlock k n := by
  apply List.ext_getElem (by simp)
  intro j h1 h2
  rw [getElem_readBlock, getElem_readBlock]
  exact h j (by simpa using h1)

/-! ### The canonical form -/

/-- The canonical form said of the list as a whole. -/
theorem wf_iff (m : Memory) :
    m.wf = true ↔ m.Pairwise (fun c d => c.1 < d.1) ∧ ∀ c ∈ m, c.1 < Config.memSize ∧ c.2 ≠ 0 := by
  induction m with
  | nil => simp [wf]
  | cons c m ih =>
    obtain ⟨a, b⟩ := c
    cases m with
    | nil => simp [wf]
    | cons d m =>
      obtain ⟨a', b'⟩ := d
      simp only [wf, Bool.and_eq_true, decide_eq_true_eq, bne_iff_ne, ne_eq, ih, List.pairwise_cons, List.mem_cons,
        forall_eq_or_imp]
      constructor
      · rintro ⟨⟨h1, h2⟩, ⟨h3, h4⟩, h5, h6⟩
        exact ⟨⟨⟨h1, fun c hc => Nat.lt_trans h1 (h3 c hc)⟩, h3, h4⟩, ⟨Nat.lt_trans h1 h5.1, h2⟩, h5, h6⟩
      · rintro ⟨⟨⟨h1, _⟩, h3, h4⟩, ⟨_, h2⟩, h5, h6⟩
        exact ⟨⟨h1, h2⟩, ⟨h3, h4⟩, h5, h6⟩

theorem mem_place (k : Nat) (b : Byte) (m : Memory) (c : Host.Cell) : c ∈ place k b m ↔ c = (k, b) ∨ c ∈ m := by
  induction m with
  | nil => simp [place]
  | cons d m ih =>
    obtain ⟨a, e⟩ := d
    simp only [place]
    split
    · simp
    · simp only [List.mem_cons, ih]; tauto

theorem pairwise_place (k : Nat) (b : Byte) (m : Memory) (h : m.Pairwise (fun c d => c.1 < d.1)) (hk : ∀ c ∈ m, c.1 ≠ k) :
    (place k b m).Pairwise (fun c d => c.1 < d.1) := by
  induction m with
  | nil => simp [place]
  | cons d m ih =>
    obtain ⟨a, e⟩ := d
    rw [List.pairwise_cons] at h
    have hne : a ≠ k := hk (a, e) (by simp)
    simp only [place]
    split
    next hlt =>
      refine List.pairwise_cons.mpr ⟨?_, List.pairwise_cons.mpr h⟩
      intro c hc
      rcases List.mem_cons.mp hc with rfl | hc
      · exact hlt
      · exact Nat.lt_trans hlt (h.1 c hc)
    next hge =>
      refine List.pairwise_cons.mpr ⟨?_, ih h.2 fun c hc => hk c (by simp [hc])⟩
      intro c hc
      rcases (mem_place k b m c).mp hc with rfl | hc
      · show a < k; omega
      · exact h.1 c hc

theorem wf_without (m : Memory) (k : Nat) (h : m.wf = true) : wf (m.without k) = true := by
  rw [wf_iff] at h ⊢
  exact ⟨h.1.filter _, fun c hc => h.2 c (List.mem_of_mem_filter hc)⟩

/-- Storing a byte inside memory keeps the canonical form. -/
theorem wf_write (m : Memory) (k : Nat) (b : Byte) (h : m.wf = true) (hk : k < Config.memSize) :
    (m.write k b).wf = true := by
  have hw := wf_without m k h
  unfold write
  split
  · exact hw
  · rw [wf_iff] at hw ⊢
    refine ⟨pairwise_place k b _ hw.1 (without_ne m k), fun c hc => ?_⟩
    rcases (mem_place k b _ c).mp hc with rfl | hc
    · exact ⟨hk, by assumption⟩
    · exact hw.2 c hc

/-- Storing a block inside memory keeps the canonical form. -/
theorem wf_writeBlock (bs : List Byte) (m : Memory) (k : Nat) (h : m.wf = true) (hk : k + bs.length ≤ Config.memSize) :
    (m.writeBlock k bs).wf = true := by
  induction bs generalizing m k with
  | nil => exact h
  | cons b bs ih =>
    simp only [List.length_cons] at hk
    exact ih _ _ (wf_write m k b h (by omega)) (by omega)

end Sys2Proof.Machine.Memory
end

