-- ==== Sys2Proof/Laws/State.lean ====
section
/-!
SUPPORT. One lemma per field and update of the state, true by rfl, so that no proof unfolds a record update. Registers are read with
`State.reg`, so the raw `v` of a register write is no simp lemma.
-/

namespace Sys2Proof.Machine

variable (s : State)

/-! ### Each update, field by field -/

@[simp] theorem setReg_mem (x : RegIdx) (b : Byte) : (s.setReg x b).mem = s.mem := rfl
theorem setReg_v (x : RegIdx) (b : Byte) : (s.setReg x b).v = s.v.set x.val b := rfl
@[simp] theorem setReg_i (x : RegIdx) (b : Byte) : (s.setReg x b).i = s.i := rfl
@[simp] theorem setReg_pc (x : RegIdx) (b : Byte) : (s.setReg x b).pc = s.pc := rfl
@[simp] theorem setReg_sp (x : RegIdx) (b : Byte) : (s.setReg x b).sp = s.sp := rfl
@[simp] theorem setReg_dt (x : RegIdx) (b : Byte) : (s.setReg x b).dt = s.dt := rfl
@[simp] theorem setReg_st (x : RegIdx) (b : Byte) : (s.setReg x b).st = s.st := rfl
@[simp] theorem setReg_leftover (x : RegIdx) (b : Byte) : (s.setReg x b).leftover = s.leftover := rfl
@[simp] theorem setReg_prng (x : RegIdx) (b : Byte) : (s.setReg x b).prng = s.prng := rfl
@[simp] theorem setReg_wait (x : RegIdx) (b : Byte) : (s.setReg x b).wait = s.wait := rfl
@[simp] theorem setReg_waitx (x : RegIdx) (b : Byte) : (s.setReg x b).waitx = s.waitx := rfl
@[simp] theorem setReg_sent (x : RegIdx) (b : Byte) : (s.setReg x b).sent = s.sent := rfl
@[simp] theorem setReg_result (x : RegIdx) (b : Byte) : (s.setReg x b).result = s.result := rfl
@[simp] theorem setReg_firstError (x : RegIdx) (b : Byte) : (s.setReg x b).firstError = s.firstError := rfl
@[simp] theorem setReg_inputs (x : RegIdx) (b : Byte) : (s.setReg x b).inputs = s.inputs := rfl
@[simp] theorem setReg_ticks (x : RegIdx) (b : Byte) : (s.setReg x b).ticks = s.ticks := rfl

@[simp] theorem setMem_mem (a : Memory) : (s.setMem a).mem = a := rfl
@[simp] theorem setMem_v (a : Memory) : (s.setMem a).v = s.v := rfl
@[simp] theorem setMem_i (a : Memory) : (s.setMem a).i = s.i := rfl
@[simp] theorem setMem_pc (a : Memory) : (s.setMem a).pc = s.pc := rfl
@[simp] theorem setMem_sp (a : Memory) : (s.setMem a).sp = s.sp := rfl
@[simp] theorem setMem_dt (a : Memory) : (s.setMem a).dt = s.dt := rfl
@[simp] theorem setMem_st (a : Memory) : (s.setMem a).st = s.st := rfl
@[simp] theorem setMem_leftover (a : Memory) : (s.setMem a).leftover = s.leftover := rfl
@[simp] theorem setMem_prng (a : Memory) : (s.setMem a).prng = s.prng := rfl
@[simp] theorem setMem_wait (a : Memory) : (s.setMem a).wait = s.wait := rfl
@[simp] theorem setMem_waitx (a : Memory) : (s.setMem a).waitx = s.waitx := rfl
@[simp] theorem setMem_sent (a : Memory) : (s.setMem a).sent = s.sent := rfl
@[simp] theorem setMem_result (a : Memory) : (s.setMem a).result = s.result := rfl
@[simp] theorem setMem_firstError (a : Memory) : (s.setMem a).firstError = s.firstError := rfl
@[simp] theorem setMem_inputs (a : Memory) : (s.setMem a).inputs = s.inputs := rfl
@[simp] theorem setMem_ticks (a : Memory) : (s.setMem a).ticks = s.ticks := rfl

@[simp] theorem setI_mem (a : Word) : (s.setI a).mem = s.mem := rfl
@[simp] theorem setI_v (a : Word) : (s.setI a).v = s.v := rfl
@[simp] theorem setI_i (a : Word) : (s.setI a).i = a := rfl
@[simp] theorem setI_pc (a : Word) : (s.setI a).pc = s.pc := rfl
@[simp] theorem setI_sp (a : Word) : (s.setI a).sp = s.sp := rfl
@[simp] theorem setI_dt (a : Word) : (s.setI a).dt = s.dt := rfl
@[simp] theorem setI_st (a : Word) : (s.setI a).st = s.st := rfl
@[simp] theorem setI_leftover (a : Word) : (s.setI a).leftover = s.leftover := rfl
@[simp] theorem setI_prng (a : Word) : (s.setI a).prng = s.prng := rfl
@[simp] theorem setI_wait (a : Word) : (s.setI a).wait = s.wait := rfl
@[simp] theorem setI_waitx (a : Word) : (s.setI a).waitx = s.waitx := rfl
@[simp] theorem setI_sent (a : Word) : (s.setI a).sent = s.sent := rfl
@[simp] theorem setI_result (a : Word) : (s.setI a).result = s.result := rfl
@[simp] theorem setI_firstError (a : Word) : (s.setI a).firstError = s.firstError := rfl
@[simp] theorem setI_inputs (a : Word) : (s.setI a).inputs = s.inputs := rfl
@[simp] theorem setI_ticks (a : Word) : (s.setI a).ticks = s.ticks := rfl

@[simp] theorem setPc_mem (a : Word) : (s.setPc a).mem = s.mem := rfl
@[simp] theorem setPc_v (a : Word) : (s.setPc a).v = s.v := rfl
@[simp] theorem setPc_i (a : Word) : (s.setPc a).i = s.i := rfl
@[simp] theorem setPc_pc (a : Word) : (s.setPc a).pc = a := rfl
@[simp] theorem setPc_sp (a : Word) : (s.setPc a).sp = s.sp := rfl
@[simp] theorem setPc_dt (a : Word) : (s.setPc a).dt = s.dt := rfl
@[simp] theorem setPc_st (a : Word) : (s.setPc a).st = s.st := rfl
@[simp] theorem setPc_leftover (a : Word) : (s.setPc a).leftover = s.leftover := rfl
@[simp] theorem setPc_prng (a : Word) : (s.setPc a).prng = s.prng := rfl
@[simp] theorem setPc_wait (a : Word) : (s.setPc a).wait = s.wait := rfl
@[simp] theorem setPc_waitx (a : Word) : (s.setPc a).waitx = s.waitx := rfl
@[simp] theorem setPc_sent (a : Word) : (s.setPc a).sent = s.sent := rfl
@[simp] theorem setPc_result (a : Word) : (s.setPc a).result = s.result := rfl
@[simp] theorem setPc_firstError (a : Word) : (s.setPc a).firstError = s.firstError := rfl
@[simp] theorem setPc_inputs (a : Word) : (s.setPc a).inputs = s.inputs := rfl
@[simp] theorem setPc_ticks (a : Word) : (s.setPc a).ticks = s.ticks := rfl

@[simp] theorem setSp_mem (a : Word) : (s.setSp a).mem = s.mem := rfl
@[simp] theorem setSp_v (a : Word) : (s.setSp a).v = s.v := rfl
@[simp] theorem setSp_i (a : Word) : (s.setSp a).i = s.i := rfl
@[simp] theorem setSp_pc (a : Word) : (s.setSp a).pc = s.pc := rfl
@[simp] theorem setSp_sp (a : Word) : (s.setSp a).sp = a := rfl
@[simp] theorem setSp_dt (a : Word) : (s.setSp a).dt = s.dt := rfl
@[simp] theorem setSp_st (a : Word) : (s.setSp a).st = s.st := rfl
@[simp] theorem setSp_leftover (a : Word) : (s.setSp a).leftover = s.leftover := rfl
@[simp] theorem setSp_prng (a : Word) : (s.setSp a).prng = s.prng := rfl
@[simp] theorem setSp_wait (a : Word) : (s.setSp a).wait = s.wait := rfl
@[simp] theorem setSp_waitx (a : Word) : (s.setSp a).waitx = s.waitx := rfl
@[simp] theorem setSp_sent (a : Word) : (s.setSp a).sent = s.sent := rfl
@[simp] theorem setSp_result (a : Word) : (s.setSp a).result = s.result := rfl
@[simp] theorem setSp_firstError (a : Word) : (s.setSp a).firstError = s.firstError := rfl
@[simp] theorem setSp_inputs (a : Word) : (s.setSp a).inputs = s.inputs := rfl
@[simp] theorem setSp_ticks (a : Word) : (s.setSp a).ticks = s.ticks := rfl

@[simp] theorem setDt_mem (a : Byte) : (s.setDt a).mem = s.mem := rfl
@[simp] theorem setDt_v (a : Byte) : (s.setDt a).v = s.v := rfl
@[simp] theorem setDt_i (a : Byte) : (s.setDt a).i = s.i := rfl
@[simp] theorem setDt_pc (a : Byte) : (s.setDt a).pc = s.pc := rfl
@[simp] theorem setDt_sp (a : Byte) : (s.setDt a).sp = s.sp := rfl
@[simp] theorem setDt_dt (a : Byte) : (s.setDt a).dt = a := rfl
@[simp] theorem setDt_st (a : Byte) : (s.setDt a).st = s.st := rfl
@[simp] theorem setDt_leftover (a : Byte) : (s.setDt a).leftover = s.leftover := rfl
@[simp] theorem setDt_prng (a : Byte) : (s.setDt a).prng = s.prng := rfl
@[simp] theorem setDt_wait (a : Byte) : (s.setDt a).wait = s.wait := rfl
@[simp] theorem setDt_waitx (a : Byte) : (s.setDt a).waitx = s.waitx := rfl
@[simp] theorem setDt_sent (a : Byte) : (s.setDt a).sent = s.sent := rfl
@[simp] theorem setDt_result (a : Byte) : (s.setDt a).result = s.result := rfl
@[simp] theorem setDt_firstError (a : Byte) : (s.setDt a).firstError = s.firstError := rfl
@[simp] theorem setDt_inputs (a : Byte) : (s.setDt a).inputs = s.inputs := rfl
@[simp] theorem setDt_ticks (a : Byte) : (s.setDt a).ticks = s.ticks := rfl

@[simp] theorem setSt_mem (a : Byte) : (s.setSt a).mem = s.mem := rfl
@[simp] theorem setSt_v (a : Byte) : (s.setSt a).v = s.v := rfl
@[simp] theorem setSt_i (a : Byte) : (s.setSt a).i = s.i := rfl
@[simp] theorem setSt_pc (a : Byte) : (s.setSt a).pc = s.pc := rfl
@[simp] theorem setSt_sp (a : Byte) : (s.setSt a).sp = s.sp := rfl
@[simp] theorem setSt_dt (a : Byte) : (s.setSt a).dt = s.dt := rfl
@[simp] theorem setSt_st (a : Byte) : (s.setSt a).st = a := rfl
@[simp] theorem setSt_leftover (a : Byte) : (s.setSt a).leftover = s.leftover := rfl
@[simp] theorem setSt_prng (a : Byte) : (s.setSt a).prng = s.prng := rfl
@[simp] theorem setSt_wait (a : Byte) : (s.setSt a).wait = s.wait := rfl
@[simp] theorem setSt_waitx (a : Byte) : (s.setSt a).waitx = s.waitx := rfl
@[simp] theorem setSt_sent (a : Byte) : (s.setSt a).sent = s.sent := rfl
@[simp] theorem setSt_result (a : Byte) : (s.setSt a).result = s.result := rfl
@[simp] theorem setSt_firstError (a : Byte) : (s.setSt a).firstError = s.firstError := rfl
@[simp] theorem setSt_inputs (a : Byte) : (s.setSt a).inputs = s.inputs := rfl
@[simp] theorem setSt_ticks (a : Byte) : (s.setSt a).ticks = s.ticks := rfl

@[simp] theorem setPrng_mem (a : BitVec 32) : (s.setPrng a).mem = s.mem := rfl
@[simp] theorem setPrng_v (a : BitVec 32) : (s.setPrng a).v = s.v := rfl
@[simp] theorem setPrng_i (a : BitVec 32) : (s.setPrng a).i = s.i := rfl
@[simp] theorem setPrng_pc (a : BitVec 32) : (s.setPrng a).pc = s.pc := rfl
@[simp] theorem setPrng_sp (a : BitVec 32) : (s.setPrng a).sp = s.sp := rfl
@[simp] theorem setPrng_dt (a : BitVec 32) : (s.setPrng a).dt = s.dt := rfl
@[simp] theorem setPrng_st (a : BitVec 32) : (s.setPrng a).st = s.st := rfl
@[simp] theorem setPrng_leftover (a : BitVec 32) : (s.setPrng a).leftover = s.leftover := rfl
@[simp] theorem setPrng_prng (a : BitVec 32) : (s.setPrng a).prng = a := rfl
@[simp] theorem setPrng_wait (a : BitVec 32) : (s.setPrng a).wait = s.wait := rfl
@[simp] theorem setPrng_waitx (a : BitVec 32) : (s.setPrng a).waitx = s.waitx := rfl
@[simp] theorem setPrng_sent (a : BitVec 32) : (s.setPrng a).sent = s.sent := rfl
@[simp] theorem setPrng_result (a : BitVec 32) : (s.setPrng a).result = s.result := rfl
@[simp] theorem setPrng_firstError (a : BitVec 32) : (s.setPrng a).firstError = s.firstError := rfl
@[simp] theorem setPrng_inputs (a : BitVec 32) : (s.setPrng a).inputs = s.inputs := rfl
@[simp] theorem setPrng_ticks (a : BitVec 32) : (s.setPrng a).ticks = s.ticks := rfl

@[simp] theorem enterWait_mem (x : RegIdx) : (s.enterWait x).mem = s.mem := rfl
@[simp] theorem enterWait_v (x : RegIdx) : (s.enterWait x).v = s.v := rfl
@[simp] theorem enterWait_i (x : RegIdx) : (s.enterWait x).i = s.i := rfl
@[simp] theorem enterWait_pc (x : RegIdx) : (s.enterWait x).pc = s.pc := rfl
@[simp] theorem enterWait_sp (x : RegIdx) : (s.enterWait x).sp = s.sp := rfl
@[simp] theorem enterWait_dt (x : RegIdx) : (s.enterWait x).dt = s.dt := rfl
@[simp] theorem enterWait_st (x : RegIdx) : (s.enterWait x).st = s.st := rfl
@[simp] theorem enterWait_leftover (x : RegIdx) : (s.enterWait x).leftover = s.leftover := rfl
@[simp] theorem enterWait_prng (x : RegIdx) : (s.enterWait x).prng = s.prng := rfl
@[simp] theorem enterWait_wait (x : RegIdx) : (s.enterWait x).wait = true := rfl
@[simp] theorem enterWait_waitx (x : RegIdx) : (s.enterWait x).waitx = x := rfl
@[simp] theorem enterWait_sent (x : RegIdx) : (s.enterWait x).sent = s.sent := rfl
@[simp] theorem enterWait_result (x : RegIdx) : (s.enterWait x).result = s.result := rfl
@[simp] theorem enterWait_firstError (x : RegIdx) : (s.enterWait x).firstError = s.firstError := rfl
@[simp] theorem enterWait_inputs (x : RegIdx) : (s.enterWait x).inputs = s.inputs := rfl
@[simp] theorem enterWait_ticks (x : RegIdx) : (s.enterWait x).ticks = s.ticks := rfl

@[simp] theorem leaveWait_mem : s.leaveWait.mem = s.mem := rfl
@[simp] theorem leaveWait_v : s.leaveWait.v = s.v := rfl
@[simp] theorem leaveWait_i : s.leaveWait.i = s.i := rfl
@[simp] theorem leaveWait_pc : s.leaveWait.pc = s.pc := rfl
@[simp] theorem leaveWait_sp : s.leaveWait.sp = s.sp := rfl
@[simp] theorem leaveWait_dt : s.leaveWait.dt = s.dt := rfl
@[simp] theorem leaveWait_st : s.leaveWait.st = s.st := rfl
@[simp] theorem leaveWait_leftover : s.leaveWait.leftover = s.leftover := rfl
@[simp] theorem leaveWait_prng : s.leaveWait.prng = s.prng := rfl
@[simp] theorem leaveWait_wait : s.leaveWait.wait = false := rfl
@[simp] theorem leaveWait_waitx : s.leaveWait.waitx = s.waitx := rfl
@[simp] theorem leaveWait_sent : s.leaveWait.sent = s.sent := rfl
@[simp] theorem leaveWait_result : s.leaveWait.result = s.result := rfl
@[simp] theorem leaveWait_firstError : s.leaveWait.firstError = s.firstError := rfl
@[simp] theorem leaveWait_inputs : s.leaveWait.inputs = s.inputs := rfl
@[simp] theorem leaveWait_ticks : s.leaveWait.ticks = s.ticks := rfl

@[simp] theorem setResult_mem (r : TickResult) : (s.setResult r).mem = s.mem := rfl
@[simp] theorem setResult_v (r : TickResult) : (s.setResult r).v = s.v := rfl
@[simp] theorem setResult_i (r : TickResult) : (s.setResult r).i = s.i := rfl
@[simp] theorem setResult_pc (r : TickResult) : (s.setResult r).pc = s.pc := rfl
@[simp] theorem setResult_sp (r : TickResult) : (s.setResult r).sp = s.sp := rfl
@[simp] theorem setResult_dt (r : TickResult) : (s.setResult r).dt = s.dt := rfl
@[simp] theorem setResult_st (r : TickResult) : (s.setResult r).st = s.st := rfl
@[simp] theorem setResult_leftover (r : TickResult) : (s.setResult r).leftover = s.leftover := rfl
@[simp] theorem setResult_prng (r : TickResult) : (s.setResult r).prng = s.prng := rfl
@[simp] theorem setResult_wait (r : TickResult) : (s.setResult r).wait = s.wait := rfl
@[simp] theorem setResult_waitx (r : TickResult) : (s.setResult r).waitx = s.waitx := rfl
@[simp] theorem setResult_sent (r : TickResult) : (s.setResult r).sent = s.sent := rfl
@[simp] theorem setResult_result (r : TickResult) : (s.setResult r).result = some r := rfl
@[simp] theorem setResult_firstError (r : TickResult) : (s.setResult r).firstError = s.firstError := rfl
@[simp] theorem setResult_inputs (r : TickResult) : (s.setResult r).inputs = s.inputs := rfl
@[simp] theorem setResult_ticks (r : TickResult) : (s.setResult r).ticks = s.ticks := rfl

@[simp] theorem noteError_mem (f : Fault) : (s.noteError f).mem = s.mem := rfl
@[simp] theorem noteError_v (f : Fault) : (s.noteError f).v = s.v := rfl
@[simp] theorem noteError_i (f : Fault) : (s.noteError f).i = s.i := rfl
@[simp] theorem noteError_pc (f : Fault) : (s.noteError f).pc = s.pc := rfl
@[simp] theorem noteError_sp (f : Fault) : (s.noteError f).sp = s.sp := rfl
@[simp] theorem noteError_dt (f : Fault) : (s.noteError f).dt = s.dt := rfl
@[simp] theorem noteError_st (f : Fault) : (s.noteError f).st = s.st := rfl
@[simp] theorem noteError_leftover (f : Fault) : (s.noteError f).leftover = s.leftover := rfl
@[simp] theorem noteError_prng (f : Fault) : (s.noteError f).prng = s.prng := rfl
@[simp] theorem noteError_wait (f : Fault) : (s.noteError f).wait = s.wait := rfl
@[simp] theorem noteError_waitx (f : Fault) : (s.noteError f).waitx = s.waitx := rfl
@[simp] theorem noteError_sent (f : Fault) : (s.noteError f).sent = s.sent := rfl
@[simp] theorem noteError_result (f : Fault) : (s.noteError f).result = s.result := rfl
@[simp] theorem noteError_firstError (f : Fault) : (s.noteError f).firstError = s.firstError.or (some f) := rfl
@[simp] theorem noteError_inputs (f : Fault) : (s.noteError f).inputs = s.inputs := rfl
@[simp] theorem noteError_ticks (f : Fault) : (s.noteError f).ticks = s.ticks := rfl

@[simp] theorem advancePc_mem : (advancePc s).mem = s.mem := rfl
@[simp] theorem advancePc_v : (advancePc s).v = s.v := rfl
@[simp] theorem advancePc_i : (advancePc s).i = s.i := rfl
@[simp] theorem advancePc_pc : (advancePc s).pc = s.pc + 2 := rfl
@[simp] theorem advancePc_sp : (advancePc s).sp = s.sp := rfl
@[simp] theorem advancePc_dt : (advancePc s).dt = s.dt := rfl
@[simp] theorem advancePc_st : (advancePc s).st = s.st := rfl
@[simp] theorem advancePc_leftover : (advancePc s).leftover = s.leftover := rfl
@[simp] theorem advancePc_prng : (advancePc s).prng = s.prng := rfl
@[simp] theorem advancePc_wait : (advancePc s).wait = s.wait := rfl
@[simp] theorem advancePc_waitx : (advancePc s).waitx = s.waitx := rfl
@[simp] theorem advancePc_sent : (advancePc s).sent = s.sent := rfl
@[simp] theorem advancePc_result : (advancePc s).result = s.result := rfl
@[simp] theorem advancePc_firstError : (advancePc s).firstError = s.firstError := rfl
@[simp] theorem advancePc_inputs : (advancePc s).inputs = s.inputs := rfl
@[simp] theorem advancePc_ticks : (advancePc s).ticks = s.ticks := rfl

@[simp] theorem skip_mem : (skip s).mem = s.mem := rfl
@[simp] theorem skip_v : (skip s).v = s.v := rfl
@[simp] theorem skip_i : (skip s).i = s.i := rfl
@[simp] theorem skip_pc : (skip s).pc = s.pc + 2 := rfl
@[simp] theorem skip_sp : (skip s).sp = s.sp := rfl
@[simp] theorem skip_dt : (skip s).dt = s.dt := rfl
@[simp] theorem skip_st : (skip s).st = s.st := rfl
@[simp] theorem skip_leftover : (skip s).leftover = s.leftover := rfl
@[simp] theorem skip_prng : (skip s).prng = s.prng := rfl
@[simp] theorem skip_wait : (skip s).wait = s.wait := rfl
@[simp] theorem skip_waitx : (skip s).waitx = s.waitx := rfl
@[simp] theorem skip_sent : (skip s).sent = s.sent := rfl
@[simp] theorem skip_result : (skip s).result = s.result := rfl
@[simp] theorem skip_firstError : (skip s).firstError = s.firstError := rfl
@[simp] theorem skip_inputs : (skip s).inputs = s.inputs := rfl
@[simp] theorem skip_ticks : (skip s).ticks = s.ticks := rfl

@[simp] theorem send_mem (r : Request) : (send r s).mem = s.mem := rfl
@[simp] theorem send_v (r : Request) : (send r s).v = s.v := rfl
@[simp] theorem send_i (r : Request) : (send r s).i = s.i := rfl
@[simp] theorem send_pc (r : Request) : (send r s).pc = s.pc := rfl
@[simp] theorem send_sp (r : Request) : (send r s).sp = s.sp := rfl
@[simp] theorem send_dt (r : Request) : (send r s).dt = s.dt := rfl
@[simp] theorem send_st (r : Request) : (send r s).st = s.st := rfl
@[simp] theorem send_leftover (r : Request) : (send r s).leftover = s.leftover := rfl
@[simp] theorem send_prng (r : Request) : (send r s).prng = s.prng := rfl
@[simp] theorem send_wait (r : Request) : (send r s).wait = s.wait := rfl
@[simp] theorem send_waitx (r : Request) : (send r s).waitx = s.waitx := rfl
@[simp] theorem send_sent (r : Request) : (send r s).sent = some r := rfl
@[simp] theorem send_result (r : Request) : (send r s).result = s.result := rfl
@[simp] theorem send_firstError (r : Request) : (send r s).firstError = s.firstError := rfl
@[simp] theorem send_inputs (r : Request) : (send r s).inputs = s.inputs := rfl
@[simp] theorem send_ticks (r : Request) : (send r s).ticks = s.ticks := rfl

@[simp] theorem clockPhase_mem (e : Nat) : (clockPhase e s).mem = s.mem := rfl
@[simp] theorem clockPhase_v (e : Nat) : (clockPhase e s).v = s.v := rfl
@[simp] theorem clockPhase_i (e : Nat) : (clockPhase e s).i = s.i := rfl
@[simp] theorem clockPhase_pc (e : Nat) : (clockPhase e s).pc = s.pc := rfl
@[simp] theorem clockPhase_sp (e : Nat) : (clockPhase e s).sp = s.sp := rfl
@[simp] theorem clockPhase_dt (e : Nat) : (clockPhase e s).dt = countDown s.dt (periods e s.leftover) := rfl
@[simp] theorem clockPhase_st (e : Nat) : (clockPhase e s).st = countDown s.st (periods e s.leftover) := rfl
@[simp] theorem clockPhase_leftover (e : Nat) : (clockPhase e s).leftover = (e + s.leftover) % Config.tickPeriodMs := rfl
@[simp] theorem clockPhase_prng (e : Nat) : (clockPhase e s).prng = s.prng := rfl
@[simp] theorem clockPhase_wait (e : Nat) : (clockPhase e s).wait = s.wait := rfl
@[simp] theorem clockPhase_waitx (e : Nat) : (clockPhase e s).waitx = s.waitx := rfl
@[simp] theorem clockPhase_sent (e : Nat) : (clockPhase e s).sent = s.sent := rfl
@[simp] theorem clockPhase_result (e : Nat) : (clockPhase e s).result = s.result := rfl
@[simp] theorem clockPhase_firstError (e : Nat) : (clockPhase e s).firstError = s.firstError := rfl
@[simp] theorem clockPhase_inputs (e : Nat) : (clockPhase e s).inputs = s.inputs := rfl
@[simp] theorem clockPhase_ticks (e : Nat) : (clockPhase e s).ticks = s.ticks := rfl

@[simp] theorem beginTick_mem : (beginTick s).mem = s.mem := rfl
@[simp] theorem beginTick_v : (beginTick s).v = s.v := rfl
@[simp] theorem beginTick_i : (beginTick s).i = s.i := rfl
@[simp] theorem beginTick_pc : (beginTick s).pc = s.pc := rfl
@[simp] theorem beginTick_sp : (beginTick s).sp = s.sp := rfl
@[simp] theorem beginTick_dt : (beginTick s).dt = countDown s.dt (periods s.input.elapsed s.leftover) := rfl
@[simp] theorem beginTick_st : (beginTick s).st = countDown s.st (periods s.input.elapsed s.leftover) := rfl
@[simp] theorem beginTick_leftover : (beginTick s).leftover = (s.input.elapsed + s.leftover) % Config.tickPeriodMs := rfl
@[simp] theorem beginTick_prng : (beginTick s).prng = s.prng := rfl
@[simp] theorem beginTick_wait : (beginTick s).wait = s.wait := rfl
@[simp] theorem beginTick_waitx : (beginTick s).waitx = s.waitx := rfl
@[simp] theorem beginTick_sent : (beginTick s).sent = none := rfl
@[simp] theorem beginTick_result : (beginTick s).result = s.result := rfl
@[simp] theorem beginTick_firstError : (beginTick s).firstError = s.firstError := rfl
@[simp] theorem beginTick_inputs : (beginTick s).inputs = s.inputs := rfl
@[simp] theorem beginTick_ticks : (beginTick s).ticks = s.ticks := rfl

@[simp] theorem endTick_mem : (endTick s).mem = s.mem := rfl
@[simp] theorem endTick_v : (endTick s).v = s.v := rfl
@[simp] theorem endTick_i : (endTick s).i = s.i := rfl
@[simp] theorem endTick_pc : (endTick s).pc = s.pc := rfl
@[simp] theorem endTick_sp : (endTick s).sp = s.sp := rfl
@[simp] theorem endTick_dt : (endTick s).dt = s.dt := rfl
@[simp] theorem endTick_st : (endTick s).st = s.st := rfl
@[simp] theorem endTick_leftover : (endTick s).leftover = s.leftover := rfl
@[simp] theorem endTick_prng : (endTick s).prng = s.prng := rfl
@[simp] theorem endTick_wait : (endTick s).wait = s.wait := rfl
@[simp] theorem endTick_waitx : (endTick s).waitx = s.waitx := rfl
@[simp] theorem endTick_sent : (endTick s).sent = s.sent := rfl
@[simp] theorem endTick_result : (endTick s).result = s.result := rfl
@[simp] theorem endTick_firstError : (endTick s).firstError = s.firstError := rfl
@[simp] theorem endTick_inputs : (endTick s).inputs = s.inputs.tail := rfl
@[simp] theorem endTick_ticks : (endTick s).ticks = s.ticks + 1 := rfl

/-! ### Registers and inputs after an update that writes none -/

@[simp] theorem reg_setMem (x : RegIdx) (a : Memory) : (s.setMem a).reg x = s.reg x := rfl
@[simp] theorem reg_setI (x : RegIdx) (a : Word) : (s.setI a).reg x = s.reg x := rfl
@[simp] theorem reg_setPc (x : RegIdx) (a : Word) : (s.setPc a).reg x = s.reg x := rfl
@[simp] theorem reg_setSp (x : RegIdx) (a : Word) : (s.setSp a).reg x = s.reg x := rfl
@[simp] theorem reg_setDt (x : RegIdx) (a : Byte) : (s.setDt a).reg x = s.reg x := rfl
@[simp] theorem reg_setSt (x : RegIdx) (a : Byte) : (s.setSt a).reg x = s.reg x := rfl
@[simp] theorem reg_setPrng (x : RegIdx) (a : BitVec 32) : (s.setPrng a).reg x = s.reg x := rfl
@[simp] theorem reg_enterWait (x : RegIdx) (y : RegIdx) : (s.enterWait y).reg x = s.reg x := rfl
@[simp] theorem reg_leaveWait (x : RegIdx) : s.leaveWait.reg x = s.reg x := rfl
@[simp] theorem reg_setResult (x : RegIdx) (r : TickResult) : (s.setResult r).reg x = s.reg x := rfl
@[simp] theorem reg_noteError (x : RegIdx) (f : Fault) : (s.noteError f).reg x = s.reg x := rfl
@[simp] theorem reg_advancePc (x : RegIdx) : (advancePc s).reg x = s.reg x := rfl
@[simp] theorem reg_skip (x : RegIdx) : (skip s).reg x = s.reg x := rfl
@[simp] theorem reg_send (x : RegIdx) (r : Request) : (send r s).reg x = s.reg x := rfl
@[simp] theorem reg_clockPhase (x : RegIdx) (e : Nat) : (clockPhase e s).reg x = s.reg x := rfl
@[simp] theorem reg_beginTick (x : RegIdx) : (beginTick s).reg x = s.reg x := rfl
@[simp] theorem reg_endTick (x : RegIdx) : (endTick s).reg x = s.reg x := rfl
@[simp] theorem input_setReg (x : RegIdx) (b : Byte) : (s.setReg x b).input = s.input := rfl
@[simp] theorem input_setMem (a : Memory) : (s.setMem a).input = s.input := rfl
@[simp] theorem input_setI (a : Word) : (s.setI a).input = s.input := rfl
@[simp] theorem input_setPc (a : Word) : (s.setPc a).input = s.input := rfl
@[simp] theorem input_setSp (a : Word) : (s.setSp a).input = s.input := rfl
@[simp] theorem input_setDt (a : Byte) : (s.setDt a).input = s.input := rfl
@[simp] theorem input_setSt (a : Byte) : (s.setSt a).input = s.input := rfl
@[simp] theorem input_setPrng (a : BitVec 32) : (s.setPrng a).input = s.input := rfl
@[simp] theorem input_enterWait (x : RegIdx) : (s.enterWait x).input = s.input := rfl
@[simp] theorem input_leaveWait : s.leaveWait.input = s.input := rfl
@[simp] theorem input_setResult (r : TickResult) : (s.setResult r).input = s.input := rfl
@[simp] theorem input_noteError (f : Fault) : (s.noteError f).input = s.input := rfl
@[simp] theorem input_advancePc : (advancePc s).input = s.input := rfl
@[simp] theorem input_skip : (skip s).input = s.input := rfl
@[simp] theorem input_send (r : Request) : (send r s).input = s.input := rfl
@[simp] theorem input_clockPhase (e : Nat) : (clockPhase e s).input = s.input := rfl
@[simp] theorem input_beginTick : (beginTick s).input = s.input := rfl

/-! ### Registers -/

@[simp] theorem reg_setReg_same (x : RegIdx) (b : Byte) : (s.setReg x b).reg x = b := by
  simp [State.reg, State.setReg]

theorem reg_setReg_other {x y : RegIdx} (b : Byte) (h : y ≠ x) : (s.setReg x b).reg y = s.reg y := by
  have h' : x.val ≠ y.val := fun e => h (Fin.ext e.symm)
  simp [State.reg, State.setReg, h']

theorem reg_setReg (x y : RegIdx) (b : Byte) : (s.setReg x b).reg y = if y = x then b else s.reg y := by
  split
  · subst_vars; simp
  · exact reg_setReg_other s b ‹_›

/-- Registers are determined by their sixteen values. -/
theorem v_eq_of_reg_eq {s t : State} (h : ∀ r, t.reg r = s.reg r) : t.v = s.v :=
  Vector.ext fun k hk => h ⟨k, hk⟩

/-! ### The inputs of a tick -/

theorem input_of_inputs_ticks {s t : State} (hi : t.inputs = s.inputs) (ht : t.ticks = s.ticks) : t.input = s.input := by
  simp [State.input, hi, ht]

theorem input_fixed (t : TickInput) (ts : List TickInput) (h : s.inputs = t :: ts) : s.input = t := by simp [State.input, h]

/-- A tick that nothing has fixed takes its free inputs. -/
theorem input_free (h : s.inputs = []) : s.input = Config.freeTickInput s.ticks := by simp [State.input, h]

end Sys2Proof.Machine
end

