-- ==== Sys2Proof/Laws/Ops.lean ====
section
/-!
SUPPORT. One lemma per shared operation that says once everything the operation can do; proofs cite these and do not unfold the
operations.
-/

namespace Sys2Proof.Machine

/-! ### The access primitives -/

@[simp] theorem inRange_iff (addr len : Nat) : inRange addr len = true ↔ len = 0 ∨ addr + len ≤ 4096 := by
  simp only [inRange, Bool.or_eq_true, beq_iff_eq, decide_eq_true_eq]
  exact Iff.rfl

/-- A read answers the block, or the error, and nothing else. -/
theorem memRead_eq (m : Memory) (addr n : Nat) :
    memRead m addr n = if n = 0 ∨ addr + n ≤ 4096 then .ok (m.readBlock addr n) else .error (.addressOutOfRange addr n) := by
  simp only [memRead, inRange_iff]

theorem memWrite_eq (m : Memory) (addr : Nat) (bs : List Byte) :
    memWrite m addr bs = if bs.length = 0 ∨ addr + bs.length ≤ 4096 then .ok (m.writeBlock addr bs)
      else .error (.addressOutOfRange addr bs.length) := by
  simp only [memWrite, inRange_iff]

theorem memReadWord_eq (m : Memory) (addr : Nat) :
    memReadWord m addr = if addr + 2 ≤ 4096 then .ok (joinBytes (m.read addr) (m.read (addr + 1)))
      else .error (.addressOutOfRange addr 2) := by
  rw [memReadWord, memRead_eq]
  by_cases h : addr + 2 ≤ 4096
  · rw [if_pos (.inr h), if_pos h]
  · rw [if_neg (by omega), if_neg h]

theorem memWriteWord_eq (m : Memory) (addr : Nat) (w : Word) :
    memWriteWord m addr w = if addr + 2 ≤ 4096 then .ok (m.writeBlock addr [highByte w, lowByte w])
      else .error (.addressOutOfRange addr 2) := by
  simp [memWriteWord, memWrite_eq]

/-- A store keeps the canonical form of memory. -/
theorem memWrite_wf {m m' : Memory} {addr : Nat} {bs : List Byte} (h : memWrite m addr bs = .ok m') (hm : m.wf = true) :
    m'.wf = true := by
  rw [memWrite_eq] at h
  split at h
  next hr =>
    cases h
    rcases hr with h0 | hr
    · rw [List.length_eq_zero_iff.mp h0]; exact hm
    · exact Memory.wf_writeBlock bs m addr hm hr
  · cases h

theorem getLsbD_joinBytes (a b : Byte) (k : Nat) :
    (joinBytes a b).getLsbD k = if k < 8 then b.getLsbD k else a.getLsbD (k - 8) :=
  BitVec.getLsbD_append

theorem getLsbD_highByte (w : Word) (k : Nat) : (highByte w).getLsbD k = (decide (k < 8) && w.getLsbD (8 + k)) :=
  BitVec.getLsbD_extractLsb' ..

theorem getLsbD_lowByte (w : Word) (k : Nat) : (lowByte w).getLsbD k = (decide (k < 8) && w.getLsbD k) := by
  rw [lowByte, BitVec.getLsbD_extractLsb', Nat.zero_add]

/-- The two bytes of a word joined again give the word (20_memory R66). -/
@[simp] theorem joinBytes_high_low (w : Word) : joinBytes (highByte w) (lowByte w) = w := by
  apply BitVec.eq_of_getLsbD_eq
  intro k hk
  rw [getLsbD_joinBytes, getLsbD_highByte, getLsbD_lowByte]
  split
  next h => simp [h]
  next h =>
    have h1 : k - 8 < 8 := by omega
    have h2 : 8 + (k - 8) = k := by omega
    rw [h2, decide_eq_true h1, Bool.true_and]

@[simp] theorem highByte_joinBytes (a b : Byte) : highByte (joinBytes a b) = a := by
  apply BitVec.eq_of_getLsbD_eq
  intro k hk
  rw [getLsbD_highByte, getLsbD_joinBytes, decide_eq_true hk, Bool.true_and, if_neg (by omega), Nat.add_sub_cancel_left]

@[simp] theorem lowByte_joinBytes (a b : Byte) : lowByte (joinBytes a b) = b := by
  apply BitVec.eq_of_getLsbD_eq
  intro k hk
  rw [getLsbD_lowByte, getLsbD_joinBytes, decide_eq_true hk, Bool.true_and, if_pos hk]

/-! ### The stack -/

theorem sp_sub_two {sp : Word} (h : 2 ≤ sp.toNat) : (sp - 2).toNat = sp.toNat - 2 := by bv_omega

/-- What a push can do (10_state R31): an error, or SP two lower and the word at the new SP. -/
theorem push_cases (w : Word) (s : State) :
    (s.sp.toNat < 2 ∧ push w s = .error (.stackFault s.sp)) ∨
    (2 ≤ s.sp.toNat ∧ s.sp.toNat ≤ 4096 ∧
      push w s = .ok ((s.setSp (s.sp - 2)).setMem (s.mem.writeBlock (s.sp.toNat - 2) [highByte w, lowByte w]))) ∨
    (4096 < s.sp.toNat ∧ push w s = .error (.addressOutOfRange (s.sp.toNat - 2) 2)) := by
  unfold push
  by_cases h : s.sp.toNat < 2
  · exact .inl ⟨h, if_pos h⟩
  · right
    rw [if_neg h, memWriteWord_eq]
    by_cases h' : s.sp.toNat ≤ 4096
    · exact .inl ⟨by omega, h', by rw [if_pos (by omega)]⟩
    · exact .inr ⟨by omega, by rw [if_neg (by omega)]⟩

/-- What a pop can do (10_state R32): an error, or the word at SP and SP two higher. -/
theorem pop_cases (s : State) :
    (0x200 < s.sp.toNat + 2 ∧ pop s = .error (.stackFault s.sp)) ∨
    (s.sp.toNat + 2 ≤ 0x200 ∧
      pop s = .ok (joinBytes (s.mem.read s.sp.toNat) (s.mem.read (s.sp.toNat + 1)), s.setSp (s.sp + 2))) := by
  unfold pop
  by_cases h : s.sp.toNat + 2 > Config.stackBase
  · exact .inl ⟨by simpa [Config.stackBase] using h, if_pos h⟩
  · right
    have h' : s.sp.toNat + 2 ≤ 0x200 := by simpa [Config.stackBase] using h
    exact ⟨h', by rw [if_neg h, memReadWord_eq, if_pos (by omega)]⟩

/-! ### How a tick ends -/

/-- Raising an error answers a next state that differs in the two records only (60_exceptions R236). -/
theorem raise_eq (f : Fault) (s : State) : raise f s = .next ((s.noteError f).setResult (.error f)) := rfl

/-- Completing answers a next state that differs in the result only. -/
theorem done_eq (s : State) : done s = .next (s.setResult .ok) := rfl

/-- What a store of a block at I can do (20_memory R64). -/
theorem storeBlock_cases (bs : List Byte) (s : State) :
    ((bs.length = 0 ∨ s.i.toNat + bs.length ≤ 4096) ∧
      storeBlock bs s = done (s.setMem (s.mem.writeBlock s.i.toNat bs))) ∨
    (0 < bs.length ∧ 4096 < s.i.toNat + bs.length ∧
      storeBlock bs s = raise (.addressOutOfRange s.i.toNat bs.length) s) := by
  unfold storeBlock blockAddr
  rw [memWrite_eq]
  by_cases h : bs.length = 0 ∨ s.i.toNat + bs.length ≤ 4096
  · exact .inl ⟨h, by rw [if_pos h]⟩
  · exact .inr ⟨by omega, by omega, by rw [if_neg h]⟩

theorem storeBlock_ok {bs : List Byte} {s : State} (h : s.i.toNat + bs.length ≤ 4096) :
    storeBlock bs s = done (s.setMem (s.mem.writeBlock s.i.toNat bs)) := by
  obtain ⟨_, h'⟩ | ⟨_, _, _⟩ := storeBlock_cases bs s
  · exact h'
  · omega

theorem storeBlock_raise {bs : List Byte} {s : State} (h0 : 0 < bs.length) (h : 4096 < s.i.toNat + bs.length) :
    storeBlock bs s = raise (.addressOutOfRange s.i.toNat bs.length) s := by
  obtain ⟨_, _⟩ | ⟨_, _, h'⟩ := storeBlock_cases bs s
  · omega
  · exact h'

/-! ### Skips and flags -/

theorem skipIf_eq (c : Bool) (s : State) : skipIf c s = s.setPc (if c then s.pc + 2 else s.pc) := by
  cases c <;> rfl

@[simp] theorem reg_skipIf (c : Bool) (s : State) (x : RegIdx) : (skipIf c s).reg x = s.reg x := by cases c <;> rfl

@[simp] theorem input_skipIf (c : Bool) (s : State) : (skipIf c s).input = s.input := by cases c <;> rfl

@[simp] theorem flagByte_toNat (c : Bool) : (flagByte c).toNat = if c then 1 else 0 := by cases c <;> rfl

theorem reg_setFlagIf (c : Bool) (s : State) (r : RegIdx) :
    (setFlagIf c s).reg r = if r = VF then flagByte c else s.reg r := reg_setReg s VF r _

/-- Result then flag: with `x = 0xF` the flag remains (42_register_alu R160). -/
theorem reg_writeResultThenFlag (x r : RegIdx) (b : Byte) (c : Bool) (s : State) :
    (writeResultThenFlag x b c s).reg r = if r = VF then flagByte c else if r = x then b else s.reg r := by
  simp only [writeResultThenFlag, reg_setFlagIf, reg_setReg]

/-- Flag then result: with `x = 0xF` the result remains (42_register_alu R160). -/
theorem reg_writeFlagThenResult (x r : RegIdx) (b : Byte) (c : Bool) (s : State) :
    (writeFlagThenResult x b c s).reg r = if r = x then b else if r = VF then flagByte c else s.reg r := by
  simp only [writeFlagThenResult, reg_setFlagIf, reg_setReg]

/-- The flag-writing operations are register writes: the lemmas of Laws/State.lean on `setReg` give the rest of the state. -/
theorem setFlagIf_eq (c : Bool) (s : State) : setFlagIf c s = s.setReg VF (flagByte c) := rfl

theorem writeResultThenFlag_eq (x : RegIdx) (b : Byte) (c : Bool) (s : State) :
    writeResultThenFlag x b c s = (s.setReg x b).setReg VF (flagByte c) := rfl

theorem writeFlagThenResult_eq (x : RegIdx) (b : Byte) (c : Bool) (s : State) :
    writeFlagThenResult x b c s = (s.setReg VF (flagByte c)).setReg x b := rfl

/-! ### Register blocks -/

@[simp] theorem length_regList (s : State) (k n : Nat) : (s.regList k n).length = n := by
  induction n generalizing k with
  | zero => rfl
  | succ n ih => simp [State.regList, ih]

theorem getElem_regList (s : State) (k n j : Nat) (h : j < (s.regList k n).length) :
    (s.regList k n)[j] = s.reg (Fin.ofNat 16 (k + j)) := by
  induction n generalizing k j with
  | zero => simp [State.regList] at h
  | succ n ih =>
    cases j with
    | zero => simp [State.regList]
    | succ j =>
      simp only [State.regList, List.getElem_cons_succ]
      rw [ih (k + 1) j (by simpa [State.regList] using h)]
      congr 2; omega

@[simp] theorem length_regsUpTo (s : State) (x : RegIdx) : (s.regsUpTo x).length = x.val + 1 := length_regList s 0 _

theorem getElem_regsUpTo (s : State) (x r : RegIdx) (h : r.val < (s.regsUpTo x).length) : (s.regsUpTo x)[r.val] = s.reg r := by
  simp [State.regsUpTo, getElem_regList]

/-- Writing a register list changes registers only. -/
theorem setRegList_eq (bs : List Byte) (s : State) (k : Nat) :
    s.setRegList k bs = { s with v := (s.setRegList k bs).v } := by
  induction bs generalizing s k with
  | nil => rfl
  | cons b bs ih =>
    rw [State.setRegList]
    exact ih (s.setReg (Fin.ofNat 16 k) b) (k + 1)

/-- What each register holds after a register list is written from `V[k]` on. -/
theorem reg_setRegList (bs : List Byte) (s : State) (k : Nat) (hk : k + bs.length ≤ 16) (r : RegIdx) :
    (s.setRegList k bs).reg r = if h : k ≤ r.val ∧ r.val - k < bs.length then bs[r.val - k]'h.2 else s.reg r := by
  induction bs generalizing s k with
  | nil => simp [State.setRegList]
  | cons b bs ih =>
    simp only [List.length_cons] at hk
    rw [State.setRegList, ih _ _ (by omega), reg_setReg]
    have hkv : (Fin.ofNat 16 k).val = k := by simp only [Fin.val_ofNat]; omega
    by_cases h1 : r.val = k
    · have hr : r = Fin.ofNat 16 k := Fin.ext (by omega)
      rw [dif_neg (by omega), if_pos hr, dif_pos (by simp only [List.length_cons]; omega)]
      simp [h1]
    · have hr : r ≠ Fin.ofNat 16 k := fun e => h1 (by rw [e, hkv])
      rw [if_neg hr]
      by_cases h2 : k + 1 ≤ r.val ∧ r.val - (k + 1) < bs.length
      · rw [dif_pos h2, dif_pos (by simp only [List.length_cons]; omega)]
        simp only [show r.val - k = r.val - (k + 1) + 1 by omega, List.getElem_cons_succ]
      · rw [dif_neg h2, dif_neg (by simp only [List.length_cons]; omega)]

/-! ### Arithmetic -/

theorem fontAddress_toNat (base : Word) (d : Byte) : (fontAddress base d).toNat = (base.toNat + 5 * d.toNat) % 65536 := by
  simp [fontAddress, Config.fontStride]

@[simp] theorem length_bcdDigits (b : Byte) : (bcdDigits b).length = 3 := rfl

theorem toNat_addrImm (a : BitVec 12) : (addrImm a).toNat = a.toNat := by simp [addrImm]; omega

theorem toNat_zext16 (b : Byte) : (zext16 b).toNat = b.toNat := by simp [zext16]; omega

theorem countDown_toNat (b : Byte) (n : Nat) : (countDown b n).toNat = b.toNat - n := by
  simp only [countDown, BitVec.toNat_ofNat]; omega

/-- The seed is not zero (10_state R35). -/
theorem prngSeed_ne_zero : Config.prngSeed ≠ 0 := by
  intro h
  have := congrArg BitVec.toNat h
  have hlt := Config.seedIndex.isLt
  rw [Config.prngSeed, BitVec.toNat_ofNat, Nat.mod_eq_of_lt (by omega)] at this
  exact absurd this (Nat.succ_ne_zero _)

end Sys2Proof.Machine
end

