-- ==== Sys2Proof/Laws/Exec.lean ====
section
/-!
SUPPORT. What an instruction can do, said once: `exec` always answers a next state, which is the state with an error noted and nothing
else changed, or a key wait entered, or a completed instruction that stays inside its write sets (10_state R40).
-/

namespace Sys2Proof.Machine

/-- The parts of the state, beside registers and `result`, that a completed instruction may write (10_state R40). -/
def partWriteSet (i : Instr) : List Part :=
  match i with
  | .cls | .drw _ _ _ => [.sent]
  | .ret => [.pc, .sp]
  | .call _ => [.pc, .sp, .mem]
  | .jp _ | .jpV0 _ | .seImm _ _ | .sneImm _ _ | .seReg _ _ | .sneReg _ _ => [.pc]
  | .skp _ | .sknp _ | .ldVxK _ => [.pc, .sent]
  | .ldI _ | .addI _ | .ldF _ => [.i]
  | .rnd _ _ => [.prng]
  | .ldDtVx _ => [.dt]
  | .ldStVx _ => [.st]
  | .ldB _ | .storeRegs _ => [.mem]
  | .ldImm _ _ | .addImm _ _ | .ldReg _ _ | .orReg _ _ | .andReg _ _ | .xorReg _ _ | .addReg _ _ | .subReg _ _ => []
  | .shr _ _ | .subnReg _ _ | .shl _ _ | .ldVxDt _ | .loadRegs _ => []

theorem changesOnly_intro {parts : List Part} {regs : List RegIdx} {s t : State} (hp : ∀ p, p ∉ parts → Part.same s t p)
    (hr : ∀ r, r ∉ regs → t.reg r = s.reg r) : ChangesOnly parts regs s t := ⟨hp, hr⟩

/-- Frames compose. -/
theorem ChangesOnly.trans {ps qs : List Part} {rs us : List RegIdx} {s t u : State} (h : ChangesOnly ps rs s t)
    (h' : ChangesOnly qs us t u) : ChangesOnly (ps ++ qs) (rs ++ us) s u := by
  constructor
  · intro p hp
    have h1 := h.1 p (fun h => hp (List.mem_append_left _ h))
    have h2 := h'.1 p (fun h => hp (List.mem_append_right _ h))
    cases p <;> simp_all [Part.same]
  · intro r hr
    rw [h'.2 r (fun h => hr (List.mem_append_right _ h)), h.2 r (fun h => hr (List.mem_append_left _ h))]

/-- A frame with more exceptions follows. -/
theorem ChangesOnly.mono {ps qs : List Part} {rs us : List RegIdx} {s t : State} (h : ChangesOnly ps rs s t) (hp : ps ⊆ qs)
    (hr : rs ⊆ us) : ChangesOnly qs us s t :=
  ⟨fun p hq => h.1 p fun hm => hq (hp hm), fun r hu => h.2 r fun hm => hu (hr hm)⟩

/-- Raising changes the two records only. -/
theorem changesOnly_raise (f : Fault) (s : State) : ChangesOnly [.result, .firstError] [] s ((s.noteError f).setResult (.error f)) := by
  constructor
  · intro p hp; cases p <;> simp_all [Part.same]
  · intro r _; rfl

/-- The Clock phase and the clearing of `sent` change these parts only. -/
theorem changesOnly_beginTick (s : State) : ChangesOnly [.dt, .st, .leftover, .sent] [] s (beginTick s) := by
  constructor
  · intro p hp; cases p <;> simp_all [Part.same]
  · intro r _; rfl

theorem changesOnly_advancePc (s : State) : ChangesOnly [.pc] [] s (advancePc s) := by
  constructor
  · intro p hp; cases p <;> simp_all [Part.same]
  · intro r _; rfl

/-- How a completed instruction, a noted error and an entered wait look. -/
inductive Outcomes (i : Instr) (s t : State) : Prop where
  | completed (hr : t.result = some .ok) (h : ChangesOnly (.result :: partWriteSet i) (regWriteSet i) s t)
  | errored (f : Fault) (h : t = (s.noteError f).setResult (.error f))
  | waits (x : RegIdx) (hi : i = .ldVxK x) (hk : s.input.key = none) (h : t = ((send .keyEvent s).enterWait x).setResult .waiting)

/-- A completed instruction, from its parts. -/
theorem completed_case {i : Instr} {s : State} (t : State) (hres : t.result = some .ok)
    (hp : ∀ p, p ∉ Part.result :: partWriteSet i → Part.same s t p) (hr : ∀ r, r ∉ regWriteSet i → t.reg r = s.reg r)
    (he : exec i s = .next t) : ∃ t, exec i s = .next t ∧ Outcomes i s t :=
  ⟨t, he, .completed hres ⟨hp, hr⟩⟩

/-- A raised error, from its parts. -/
theorem error_case {i : Instr} {s : State} (f : Fault) (he : exec i s = raise f s) :
    ∃ t, exec i s = .next t ∧ Outcomes i s t := ⟨_, he, .errored f rfl⟩

/-- EVERYTHING AN INSTRUCTION CAN DO. -/
theorem exec_cases (i : Instr) (s : State) : ∃ t, exec i s = .next t ∧ Outcomes i s t := by
  cases i with
  | cls =>
    refine completed_case _ rfl ?_ ?_ rfl
    · intro p hp; cases p <;> simp_all [Part.same, partWriteSet]
    · intro r _; rfl
  | ret =>
    rcases pop_cases s with ⟨_, h⟩ | ⟨_, h⟩
    · exact error_case _ (by show execRet s = _; rw [execRet, h])
    · refine completed_case _ rfl ?_ ?_ (by show execRet s = _; rw [execRet, h]; rfl)
      · intro p hp; cases p <;> simp_all [Part.same, partWriteSet]
      · intro r _; rfl
  | call nnn =>
    rcases push_cases s.pc s with ⟨_, h⟩ | ⟨_, _, h⟩ | ⟨_, h⟩
    · exact error_case _ (by show execCall nnn s = _; rw [execCall, h])
    · refine completed_case _ rfl ?_ ?_ (by show execCall nnn s = _; rw [execCall, h]; rfl)
      · intro p hp; cases p <;> simp_all [Part.same, partWriteSet]
      · intro r _; rfl
    · exact error_case _ (by show execCall nnn s = _; rw [execCall, h])
  | jp _ | jpV0 _ | ldI _ | addI _ | ldF _ | ldDtVx _ | ldStVx _ =>
    refine completed_case _ rfl ?_ ?_ rfl
    · intro p hp; cases p <;> simp_all [Part.same, partWriteSet]
    · intro r _; rfl
  | seImm _ _ | sneImm _ _ | seReg _ _ | sneReg _ _ | skp _ | sknp _ =>
    refine completed_case _ rfl ?_ ?_ rfl
    · intro p hp; cases p <;> simp_all [Part.same, partWriteSet, skipIf_eq]
    · intro r _; simp
  | ldImm _ _ | addImm _ _ | ldReg _ _ | orReg _ _ | andReg _ _ | xorReg _ _ | ldVxDt _ =>
    refine completed_case _ rfl ?_ ?_ rfl
    · intro p hp; cases p <;> simp_all [Part.same, partWriteSet]
    · intro r hr; simp only [regWriteSet, List.mem_singleton] at hr; simp [reg_setReg, hr]
  | addReg _ _ | subReg _ _ | subnReg _ _ =>
    refine completed_case _ rfl ?_ ?_ rfl
    · intro p hp; cases p <;> simp_all [Part.same, partWriteSet, writeResultThenFlag_eq]
    · intro r hr
      simp only [regWriteSet, List.mem_cons, List.not_mem_nil, or_false, not_or] at hr
      simp [reg_writeResultThenFlag, hr]
  | shr _ _ | shl _ _ =>
    refine completed_case _ rfl ?_ ?_ rfl
    · intro p hp; cases p <;> simp_all [Part.same, partWriteSet, writeFlagThenResult_eq]
    · intro r hr
      simp only [regWriteSet, List.mem_cons, List.not_mem_nil, or_false, not_or] at hr
      simp [reg_writeFlagThenResult, hr]
  | rnd _ _ =>
    refine completed_case _ rfl ?_ ?_ rfl
    · intro p hp; cases p <;> simp_all [Part.same, partWriteSet, nextRandom]
    · intro r hr; simp only [regWriteSet, List.mem_singleton] at hr; simp [nextRandom, reg_setReg, hr]
  | drw x y n =>
    by_cases h : n.toNat = 0 ∨ s.i.toNat + n.toNat ≤ 4096
    · refine completed_case _ rfl ?_ ?_
        (by show execDrw x y n s = _; unfold execDrw blockAddr spriteLen; rw [memRead_eq, if_pos h]; rfl)
      · intro p hp; cases p <;> simp_all [Part.same, partWriteSet, setFlagIf_eq]
      · intro r hr; simp only [regWriteSet, List.mem_singleton] at hr; simp [reg_setFlagIf, hr]
    · exact error_case _ (by show execDrw x y n s = _; unfold execDrw blockAddr spriteLen; rw [memRead_eq, if_neg h])
  | ldB _ | storeRegs _ =>
    rcases storeBlock_cases _ s with ⟨_, h⟩ | ⟨_, _, h⟩
    · refine completed_case _ rfl ?_ ?_ h
      · intro p hp; cases p <;> simp_all [Part.same, partWriteSet]
      · intro r _; rfl
    · exact error_case _ h
  | loadRegs x =>
    by_cases h : regCount x = 0 ∨ s.i.toNat + regCount x ≤ 4096
    · refine completed_case _ rfl ?_ ?_
        (by show execLoadRegs x s = _; unfold execLoadRegs blockAddr; rw [memRead_eq, if_pos h]; rfl)
      · intro p hp; rw [setRegList_eq]; cases p <;> simp_all [Part.same, partWriteSet]
      · intro r hr
        have hr : x.val < r.val := by simpa [regWriteSet] using hr
        rw [reg_setResult, reg_setRegList _ _ _ (by simp [regCount]), dif_neg (by simp [regCount]; omega)]
    · exact error_case _ (by show execLoadRegs x s = _; unfold execLoadRegs blockAddr; rw [memRead_eq, if_neg h])
  | ldVxK x =>
    cases hk : s.input.key with
    | some k =>
      refine completed_case _ rfl ?_ ?_ (by show execLdVxK x s = _; rw [execLdVxK, hk])
      · intro p hp; cases p <;> simp_all [Part.same, partWriteSet, takeKey]
      · intro r hr; simp only [regWriteSet, List.mem_singleton] at hr; simp [takeKey, reg_setReg, hr]
    | none => exact ⟨_, by show execLdVxK x s = _; rw [execLdVxK, hk], .waits x rfl hk rfl⟩

end Sys2Proof.Machine
end

