-- ==== Sys2Proof/Laws/PerInstr.lean ====
section
/-!
SUPPORT. Facts about every instruction as syntax, one lemma per constructor.
Family EncodesItsRow: the word the encoder writes matches the instruction's own row of the opcode map (30_encoding R95).
-/

namespace Sys2Proof.Laws.EncodesItsRow

/-- The encoded word is one its row of the opcode map covers. -/
def Statement (i : Instr) : Prop := i.row.covers (encode i) = true

theorem of_mask_op {w : Word} {r : OpcodeRow} (hm : r.mask = 0xF000) (h : formXYN (fieldOp w) 0 0 0 = r.bits) :
    r.covers w = true := by
  simp only [OpcodeRow.covers, hm, mask_op, h, beq_self_eq_true]

theorem of_mask_op_low {w : Word} {r : OpcodeRow} (hm : r.mask = 0xF00F)
    (h : formXYN (fieldOp w) 0 0 0 ||| formXYN 0 0 0 (fieldN w) = r.bits) : r.covers w = true := by
  simp only [OpcodeRow.covers, hm, mask_op_low, mask_op, mask_low, h, beq_self_eq_true]

theorem of_mask_op_lowByte {w : Word} {r : OpcodeRow} (hm : r.mask = 0xF0FF)
    (h : formXYN (fieldOp w) 0 0 0 ||| formXKK 0 0 (fieldKK w) = r.bits) : r.covers w = true := by
  simp only [OpcodeRow.covers, hm, mask_op_lowByte, mask_op, mask_lowByte, h, beq_self_eq_true]

theorem cls : Statement .cls :=
  by unfold Statement; decide
theorem ret : Statement .ret :=
  by unfold Statement; decide
theorem jp (nnn : BitVec 12) : Statement (.jp nnn) :=
  of_mask_op rfl (by simp only [encode, fieldOp_formNNN]; rfl)
theorem call (nnn : BitVec 12) : Statement (.call nnn) :=
  of_mask_op rfl (by simp only [encode, fieldOp_formNNN]; rfl)
theorem seImm (x : RegIdx) (kk : Byte) : Statement (.seImm x kk) :=
  of_mask_op rfl (by simp only [encode, fieldOp_formXKK]; rfl)
theorem sneImm (x : RegIdx) (kk : Byte) : Statement (.sneImm x kk) :=
  of_mask_op rfl (by simp only [encode, fieldOp_formXKK]; rfl)
theorem seReg (x y : RegIdx) : Statement (.seReg x y) :=
  of_mask_op_low rfl (by simp only [encode, fieldOp_formXYN, fieldN_formXYN]; rfl)
theorem ldImm (x : RegIdx) (kk : Byte) : Statement (.ldImm x kk) :=
  of_mask_op rfl (by simp only [encode, fieldOp_formXKK]; rfl)
theorem addImm (x : RegIdx) (kk : Byte) : Statement (.addImm x kk) :=
  of_mask_op rfl (by simp only [encode, fieldOp_formXKK]; rfl)
theorem ldReg (x y : RegIdx) : Statement (.ldReg x y) :=
  of_mask_op_low rfl (by simp only [encode, fieldOp_formXYN, fieldN_formXYN]; rfl)
theorem orReg (x y : RegIdx) : Statement (.orReg x y) :=
  of_mask_op_low rfl (by simp only [encode, fieldOp_formXYN, fieldN_formXYN]; rfl)
theorem andReg (x y : RegIdx) : Statement (.andReg x y) :=
  of_mask_op_low rfl (by simp only [encode, fieldOp_formXYN, fieldN_formXYN]; rfl)
theorem xorReg (x y : RegIdx) : Statement (.xorReg x y) :=
  of_mask_op_low rfl (by simp only [encode, fieldOp_formXYN, fieldN_formXYN]; rfl)
theorem addReg (x y : RegIdx) : Statement (.addReg x y) :=
  of_mask_op_low rfl (by simp only [encode, fieldOp_formXYN, fieldN_formXYN]; rfl)
theorem subReg (x y : RegIdx) : Statement (.subReg x y) :=
  of_mask_op_low rfl (by simp only [encode, fieldOp_formXYN, fieldN_formXYN]; rfl)
theorem shr (x y : RegIdx) : Statement (.shr x y) :=
  of_mask_op_low rfl (by simp only [encode, fieldOp_formXYN, fieldN_formXYN]; rfl)
theorem subnReg (x y : RegIdx) : Statement (.subnReg x y) :=
  of_mask_op_low rfl (by simp only [encode, fieldOp_formXYN, fieldN_formXYN]; rfl)
theorem shl (x y : RegIdx) : Statement (.shl x y) :=
  of_mask_op_low rfl (by simp only [encode, fieldOp_formXYN, fieldN_formXYN]; rfl)
theorem sneReg (x y : RegIdx) : Statement (.sneReg x y) :=
  of_mask_op_low rfl (by simp only [encode, fieldOp_formXYN, fieldN_formXYN]; rfl)
theorem ldI (nnn : BitVec 12) : Statement (.ldI nnn) :=
  of_mask_op rfl (by simp only [encode, fieldOp_formNNN]; rfl)
theorem jpV0 (nnn : BitVec 12) : Statement (.jpV0 nnn) :=
  of_mask_op rfl (by simp only [encode, fieldOp_formNNN]; rfl)
theorem rnd (x : RegIdx) (kk : Byte) : Statement (.rnd x kk) :=
  of_mask_op rfl (by simp only [encode, fieldOp_formXKK]; rfl)
theorem drw (x y : RegIdx) (n : BitVec 4) : Statement (.drw x y n) :=
  of_mask_op rfl (by simp only [encode, fieldOp_formXYN]; rfl)
theorem skp (x : RegIdx) : Statement (.skp x) :=
  of_mask_op_lowByte rfl (by simp only [encode, formX, fieldOp_formXKK, fieldKK_formXKK]; rfl)
theorem sknp (x : RegIdx) : Statement (.sknp x) :=
  of_mask_op_lowByte rfl (by simp only [encode, formX, fieldOp_formXKK, fieldKK_formXKK]; rfl)
theorem ldVxDt (x : RegIdx) : Statement (.ldVxDt x) :=
  of_mask_op_lowByte rfl (by simp only [encode, formX, fieldOp_formXKK, fieldKK_formXKK]; rfl)
theorem ldVxK (x : RegIdx) : Statement (.ldVxK x) :=
  of_mask_op_lowByte rfl (by simp only [encode, formX, fieldOp_formXKK, fieldKK_formXKK]; rfl)
theorem ldDtVx (x : RegIdx) : Statement (.ldDtVx x) :=
  of_mask_op_lowByte rfl (by simp only [encode, formX, fieldOp_formXKK, fieldKK_formXKK]; rfl)
theorem ldStVx (x : RegIdx) : Statement (.ldStVx x) :=
  of_mask_op_lowByte rfl (by simp only [encode, formX, fieldOp_formXKK, fieldKK_formXKK]; rfl)
theorem addI (x : RegIdx) : Statement (.addI x) :=
  of_mask_op_lowByte rfl (by simp only [encode, formX, fieldOp_formXKK, fieldKK_formXKK]; rfl)
theorem ldF (x : RegIdx) : Statement (.ldF x) :=
  of_mask_op_lowByte rfl (by simp only [encode, formX, fieldOp_formXKK, fieldKK_formXKK]; rfl)
theorem ldB (x : RegIdx) : Statement (.ldB x) :=
  of_mask_op_lowByte rfl (by simp only [encode, formX, fieldOp_formXKK, fieldKK_formXKK]; rfl)
theorem storeRegs (x : RegIdx) : Statement (.storeRegs x) :=
  of_mask_op_lowByte rfl (by simp only [encode, formX, fieldOp_formXKK, fieldKK_formXKK]; rfl)
theorem loadRegs (x : RegIdx) : Statement (.loadRegs x) :=
  of_mask_op_lowByte rfl (by simp only [encode, formX, fieldOp_formXKK, fieldKK_formXKK]; rfl)

end Sys2Proof.Laws.EncodesItsRow
end

