-- ==== Sys2Proof/Laws/Tick.lean ====
section
/-!
SUPPORT. What a step can do, said once (`step_cases`), and the step in each of its four cases as an equation.
-/

namespace Sys2Proof.Machine

theorem thenNext_next {f : State → State} {o : Result} {t : State} (h : thenNext f o = .next t) :
    ∃ u, o = .next u ∧ t = f u := by
  cases o with
  | next u => exact ⟨u, rfl, by cases h; rfl⟩
  | fault r => cases h
  | refused r => cases h

/-- The word the next fetch reads. -/
def wordAtPc (s : State) : Word := joinBytes (s.mem.read s.pc.toNat) (s.mem.read (s.pc.toNat + 1))

theorem fetch_eq (s : State) :
    fetch s = if s.pc.toNat + 2 ≤ 4096 then .ok (wordAtPc s) else .error (.addressOutOfRange s.pc.toNat 2) :=
  memReadWord_eq _ _

/-- A tick in wait mode is the wait phase (40_cycle R122). -/
theorem step_wait {s : State} (h : s.wait = true) : step s = thenNext endTick (waitPhase (beginTick s)) := by
  simp [step, tick, afterClock, h]

/-- A tick whose fetch is out of range raises (40_cycle R123). -/
theorem step_fetch_error {s : State} (h : s.wait = false) (hp : 4096 < s.pc.toNat + 2) :
    step s = thenNext endTick (raise (.addressOutOfRange s.pc.toNat 2) (beginTick s)) := by
  have hf : fetch (beginTick s) = .error (.addressOutOfRange s.pc.toNat 2) := by
    rw [fetch_eq, beginTick_pc, if_neg (by omega)]
  simp [step, tick, afterClock, h, hf]

/-- A tick whose fetch succeeds runs the word (40_cycle R124). -/
theorem step_fetch_ok {s : State} (h : s.wait = false) (hp : s.pc.toNat + 2 ≤ 4096) :
    step s = thenNext endTick (runWord (wordAtPc s) (beginTick s)) := by
  have hf : fetch (beginTick s) = .ok (wordAtPc s) := by rw [fetch_eq, beginTick_pc, if_pos hp]; rfl
  simp [step, tick, afterClock, h, hf]

/-- EVERYTHING A STEP CAN DO: the wait phase, a fetch error, an undefined word, or one instruction. -/
theorem step_cases {s t : State} (h : step s = .next t) :
    ∃ u, t = endTick u ∧
      ((s.wait = true ∧ waitPhase (beginTick s) = .next u) ∨
       (s.wait = false ∧ 4096 < s.pc.toNat + 2 ∧ raise (.addressOutOfRange s.pc.toNat 2) (beginTick s) = .next u) ∨
       (s.wait = false ∧ s.pc.toNat + 2 ≤ 4096 ∧ decodeWord (wordAtPc s) = none ∧
          raise (.unknownOpcode (wordAtPc s)) (advancePc (beginTick s)) = .next u) ∨
       (∃ i, s.wait = false ∧ s.pc.toNat + 2 ≤ 4096 ∧ decodeWord (wordAtPc s) = some i ∧
          exec i (enter i (beginTick s)) = .next u)) := by
  by_cases hw : s.wait = true
  · rw [step_wait hw] at h
    obtain ⟨u, hu, ht⟩ := thenNext_next h
    exact ⟨u, ht, .inl ⟨hw, hu⟩⟩
  have hw : s.wait = false := by simpa using hw
  by_cases hp : s.pc.toNat + 2 ≤ 4096
  · rw [step_fetch_ok hw hp] at h
    obtain ⟨u, hu, ht⟩ := thenNext_next h
    refine ⟨u, ht, .inr (.inr ?_)⟩
    unfold runWord at hu
    split at hu
    · exact .inr ⟨_, hw, hp, ‹_›, hu⟩
    · exact .inl ⟨hw, hp, ‹_›, hu⟩
  · have hp : 4096 < s.pc.toNat + 2 := by omega
    rw [step_fetch_error hw hp] at h
    obtain ⟨u, hu, ht⟩ := thenNext_next h
    exact ⟨u, ht, .inr (.inl ⟨hw, hp, hu⟩)⟩

/-- Decoding two bytes is decoding the word they make. -/
theorem decode_two (a b : Byte) (i : Instr) : decode [a, b] = .ok (i, []) ↔ decodeWord (joinBytes a b) = some i := by
  simp only [decode]
  cases decodeWord (joinBytes a b) <;> simp

theorem fetchesInstr_iff (s : State) (i : Instr) :
    FetchesInstr s i ↔ s.pc.toNat + 2 ≤ 4096 ∧ decodeWord (wordAtPc s) = some i := by
  simp only [FetchesInstr, decode_two, wordAtPc, Config.memSize]

end Sys2Proof.Machine
end

