-- ==== Sys2Proof/Laws/Step.lean ====
section
/-!
SUPPORT. The state an instruction executes in, field by field; which instruction a tick executes; and what a step can do, joined with
what its instruction can do (`step_outcomes`), so that a statement about every step is a case analysis on it.
-/

namespace Sys2Proof.Machine

/-! ### The state an instruction executes in -/

variable (i : Instr) (s : State)

@[simp] theorem entered_mem : (entered i s).mem = s.mem := by simp only [entered, enter]; split <;> rfl
@[simp] theorem entered_reg (r : RegIdx) : (entered i s).reg r = s.reg r := by simp only [entered, enter]; split <;> rfl
@[simp] theorem entered_i : (entered i s).i = s.i := by simp only [entered, enter]; split <;> rfl
@[simp] theorem entered_sp : (entered i s).sp = s.sp := by simp only [entered, enter]; split <;> rfl
@[simp] theorem entered_prng : (entered i s).prng = s.prng := by simp only [entered, enter]; split <;> rfl
@[simp] theorem entered_wait : (entered i s).wait = s.wait := by simp only [entered, enter]; split <;> rfl
@[simp] theorem entered_waitx : (entered i s).waitx = s.waitx := by simp only [entered, enter]; split <;> rfl
@[simp] theorem entered_sent : (entered i s).sent = none := by simp only [entered, enter]; split <;> rfl
@[simp] theorem entered_firstError : (entered i s).firstError = s.firstError := by simp only [entered, enter]; split <;> rfl
@[simp] theorem entered_inputs : (entered i s).inputs = s.inputs := by simp only [entered, enter]; split <;> rfl
@[simp] theorem entered_ticks : (entered i s).ticks = s.ticks := by simp only [entered, enter]; split <;> rfl
@[simp] theorem entered_input : (entered i s).input = s.input := by simp only [entered, enter]; split <;> rfl

theorem entered_leftover : (entered i s).leftover = (s.input.elapsed + s.leftover) % 16 := by
  simp only [entered, enter]; split <;> rfl
theorem entered_dt : (entered i s).dt = countDown s.dt ((s.input.elapsed + s.leftover) / 16) := by
  simp only [entered, enter]; split <;> rfl
theorem entered_st : (entered i s).st = countDown s.st ((s.input.elapsed + s.leftover) / 16) := by
  simp only [entered, enter]; split <;> rfl

/-- PC is advanced for every instruction but `Fx0A` (40_cycle R125). -/
theorem entered_pc {i : Instr} (h : ∀ x, i ≠ .ldVxK x) (s : State) : (entered i s).pc = s.pc + 2 := by
  cases i <;> first | rfl | exact absurd rfl (h _)

/-! ### Which instruction a tick executes -/

theorem executes_iff {s : State} {i : Instr} :
    Executes s i ↔ s.wait = false ∧ s.pc.toNat + 2 ≤ 4096 ∧ decodeWord (wordAtPc s) = some i := by
  simp only [Executes, fetchesInstr_iff]

/-- A tick executes one instruction (30_encoding R98). -/
theorem executes_unique {s : State} {i j : Instr} (hi : Executes s i) (hj : Executes s j) : i = j := by
  have := (executes_iff.1 hi).2.2.symm.trans (executes_iff.1 hj).2.2
  cases this; rfl

/-! ### What a step can do -/

/-- The two ends of a wait tick (45_display_keypad R219). -/
theorem waitPhase_cases {s u : State} (h : waitPhase s = .next u) :
    (∃ k, s.input.key = some k ∧ u = takeKey s.waitx k (send .keyEvent s).leaveWait) ∨
    (s.input.key = none ∧ u = (send .keyEvent s).setResult .waiting) := by
  unfold waitPhase at h
  split at h <;> cases h
  · exact .inl ⟨_, ‹_›, rfl⟩
  · exact .inr ⟨‹_›, rfl⟩

/-- The five ways a step ends, before its inputs are used up. -/
inductive StepOutcomes (s u : State) : Prop where
  | keyTaken (k : BitVec 4) (hw : s.wait = true) (hk : s.input.key = some k)
      (h : u = takeKey s.waitx k (send .keyEvent (beginTick s)).leaveWait)
  | keyAwaited (hw : s.wait = true) (hk : s.input.key = none) (h : u = (send .keyEvent (beginTick s)).setResult .waiting)
  | fetchError (hw : s.wait = false) (hp : 4096 < s.pc.toNat + 2)
      (h : u = ((beginTick s).noteError (.addressOutOfRange s.pc.toNat 2)).setResult (.error (.addressOutOfRange s.pc.toNat 2)))
  | undefinedWord (hw : s.wait = false) (hp : s.pc.toNat + 2 ≤ 4096) (hd : decodeWord (wordAtPc s) = none)
      (h : u = ((advancePc (beginTick s)).noteError (.unknownOpcode (wordAtPc s))).setResult (.error (.unknownOpcode (wordAtPc s))))
  | ran (i : Instr) (hi : Executes s i) (he : exec i (entered i s) = .next u) (h : Outcomes i (entered i s) u)

/-- EVERYTHING A STEP CAN DO, the instruction's part included. -/
theorem step_outcomes {s t : State} (h : step s = .next t) : ∃ u, t = endTick u ∧ StepOutcomes s u := by
  obtain ⟨u, ht, ⟨hw, h⟩ | ⟨hw, hp, h⟩ | ⟨hw, hp, hd, h⟩ | ⟨i, hw, hp, hd, he⟩⟩ := step_cases h
  · rcases waitPhase_cases h with ⟨k, hk, hu⟩ | ⟨hk, hu⟩
    · exact ⟨u, ht, .keyTaken k hw hk hu⟩
    · exact ⟨u, ht, .keyAwaited hw hk hu⟩
  · exact ⟨u, ht, .fetchError hw hp (by cases h; rfl)⟩
  · exact ⟨u, ht, .undefinedWord hw hp hd (by cases h; rfl)⟩
  · obtain ⟨v, hv, ho⟩ := exec_cases i (entered i s)
    have hu : v = u := by have := hv.symm.trans he; cases this; rfl
    exact ⟨u, ht, .ran i (executes_iff.2 ⟨hw, hp, hd⟩) he (hu ▸ ho)⟩

end Sys2Proof.Machine
end

