-- ==== Sys2Proof/Tests/Slice0.lean ====
section
/-!
SUPPORT. The model's own tests. The words of the decode tests are written out from the patterns of 30_encoding R95; the expected values
of the step tests are those of spec/95_test_vectors, whose ids the comments give; the witnesses show that the hypotheses of each
obligation can be met.
-/

namespace Sys2Proof.Tests

open Sys2Proof Sys2Proof.Machine

/-! ### Helpers -/

/-- A tick in which no time passes and every reply is negative (95_test_vectors, conventions). -/
def quiet : TickInput := { elapsed := 0, collided := false, down := false, key := none }

/-- The reset state with these registers set, and the next tick's inputs fixed. -/
def withRegs (regs : List (RegIdx × Byte)) (t : TickInput := quiet) : State :=
  regs.foldl (fun s r => s.setReg r.1 r.2) { State.reset with inputs := [t] }

/-- A word put at an address, PC there. -/
def State.at (s : State) (a : Nat) (w : Word) : State :=
  { s with mem := s.mem.writeBlock a [highByte w, lowByte w], pc := BitVec.ofNat 16 a }

/-- Whether an answer is a next state that satisfies a test. -/
def gives (o : Result) (p : State → Bool) : Bool :=
  match o with
  | .next t => p t
  | _ => false

/-- The tick ended with `Ok` and PC holds the given address. -/
def okAt (t : State) (a : Word) : Bool := t.result == some .ok && t.pc == a

/-- The tick ended with the given error and PC holds the given address. -/
def errorAt (t : State) (f : Fault) (a : Word) : Bool := t.result == some (.error f) && t.pc == a

/-- One tick on a word at 0x200, from registers and the tick's inputs. -/
def run (w : Word) (regs : List (RegIdx × Byte)) (t : TickInput := quiet) : Result := step (State.at (withRegs regs t) 0x200 w)

/-- One tick on a word at 0x200, from registers and a value of I. -/
def runI (w : Word) (regs : List (RegIdx × Byte)) (i : Word) : Result :=
  step { State.at (withRegs regs) 0x200 w with i := i }


/-! ### Words that no row of the map covers: one of each of the six sets (30_encoding R96) -/

theorem test_undefined_group0 : wordDefined 0x0123 = false ∧ decodeWord 0x0123 = none := by decide

theorem test_undefined_group5 : wordDefined 0x5001 = false ∧ decodeWord 0x5001 = none := by decide

theorem test_undefined_group8 : wordDefined 0x8AB9 = false ∧ decodeWord 0x8AB9 = none := by decide

theorem test_undefined_group9 : wordDefined 0x9AB1 = false ∧ decodeWord 0x9AB1 = none := by decide

theorem test_undefined_groupE : wordDefined 0xE09F = false ∧ decodeWord 0xE09F = none := by decide

theorem test_undefined_groupF : wordDefined 0xF030 = false ∧ decodeWord 0xF030 = none := by decide

/-- A list shorter than an instruction is refused by name, and so is an undefined word. -/
theorem test_decode_refusals :
    decode [0x12] = .error .tooShort ∧ decode [0x5A, 0xB1, 0x00] = .error (.undefinedWord 0x5AB1) := ⟨rfl, rfl⟩

/-- The map has 34 rows (30_encoding R95). -/
theorem test_opcodeRows_length : opcodeRows.length = 34 := by decide

/-! ### Decoding: words written out bit by bit from the patterns of 30_encoding R95 -/

theorem test_decode_system :
    decodeWord 0b0000000011100000 = some (.cls) ∧
    decodeWord 0b0000000011101110 = some (.ret) := by decide

theorem test_decode_jumps :
    decodeWord 0b0001000011100000 = some (.jp 0x0E0) ∧
    decodeWord 0b0010001100000000 = some (.call 0x300) ∧
    decodeWord 0b1011111111111111 = some (.jpV0 0xFFF) := by decide

theorem test_decode_skips :
    decodeWord 0b0011001100101010 = some (.seImm 3 0x2A) ∧
    decodeWord 0b0100111100000001 = some (.sneImm 15 0x01) ∧
    decodeWord 0b0101101010110000 = some (.seReg 10 11) ∧
    decodeWord 0b1001101010110000 = some (.sneReg 10 11) ∧
    decodeWord 0b1110000010011110 = some (.skp 0) ∧
    decodeWord 0b1110111110100001 = some (.sknp 15) := by decide

theorem test_decode_loads :
    decodeWord 0b0110101000101111 = some (.ldImm 10 0x2F) ∧
    decodeWord 0b0111000111111111 = some (.addImm 1 0xFF) ∧
    decodeWord 0b1000000100100000 = some (.ldReg 1 2) := by decide

theorem test_decode_logic :
    decodeWord 0b1000000100100001 = some (.orReg 1 2) ∧
    decodeWord 0b1000000100100010 = some (.andReg 1 2) ∧
    decodeWord 0b1000000100100011 = some (.xorReg 1 2) := by decide

theorem test_decode_arithmetic :
    decodeWord 0b1000000100100100 = some (.addReg 1 2) ∧
    decodeWord 0b1000000100100101 = some (.subReg 1 2) ∧
    decodeWord 0b1000101010110110 = some (.shr 10 11) ∧
    decodeWord 0b1000000100100111 = some (.subnReg 1 2) ∧
    decodeWord 0b1000101010111110 = some (.shl 10 11) := by decide

theorem test_decode_index :
    decodeWord 0b1010001011110000 = some (.ldI 0x2F0) ∧
    decodeWord 0b1111001000011110 = some (.addI 2) ∧
    decodeWord 0b1111010000101001 = some (.ldF 4) ∧
    decodeWord 0b1111001100110011 = some (.ldB 3) ∧
    decodeWord 0b1111001001010101 = some (.storeRegs 2) ∧
    decodeWord 0b1111000101100101 = some (.loadRegs 1) := by decide

theorem test_decode_timers :
    decodeWord 0b1111010100000111 = some (.ldVxDt 5) ∧
    decodeWord 0b1111000000001010 = some (.ldVxK 0) ∧
    decodeWord 0b1111010100010101 = some (.ldDtVx 5) ∧
    decodeWord 0b1111010100011000 = some (.ldStVx 5) := by decide

theorem test_decode_random_draw :
    decodeWord 0b1100000100001111 = some (.rnd 1 0x0F) ∧
    decodeWord 0b1101000100100011 = some (.drw 1 2 3) := by decide

/-- The table's numbering: bit 0 is the least significant bit of the word. -/
theorem test_decodeTableWord : decodeTableWord 16 0xD123 = some (.drw 1 2 3) ∧ decodeTableWord 16 0xF175 = none := by decide

/-- The encoder writes the words of the patterns. -/
theorem test_encode : encode (.drw 1 2 3) = 0xD123 ∧ encode (.sknp 15) = 0xEFA1 ∧ encodeBytes (.ldI 0x2F0) = [0xA2, 0xF0] := by decide

/-! ### One tick on one instruction (95_test_vectors) -/

/-- K1 -/
theorem test_cls :
    gives (run 0x00E0 []) (fun t => okAt t 0x202 && t.sent == some .dispClear && t.mem == [(0x201, 0xE0)]) = true := by decide

/-- C9: all 16 bits, and the bytes stay -/
theorem test_ret :
    gives (step { State.at { withRegs [] with mem := [(0x1FE, 0x12), (0x1FF, 0x35)] } 0x300 0x00EE with sp := 0x1FE }) (fun t => okAt t 0x1235 && t.sp == 0x200 && t.mem.read 0x1FE == 0x12) = true := by decide

/-- C10 -/
theorem test_ret_empty :
    gives (step (State.at (withRegs []) 0x300 0x00EE)) (fun t => errorAt t (.stackFault 0x200) 0x302 && t.sp == 0x200) = true := by decide

/-- C1 -/
theorem test_jp :
    gives (run 0x1234 []) (fun t => okAt t 0x234) = true := by decide

/-- C3 -/
theorem test_jp_odd :
    gives (run 0x1201 []) (fun t => okAt t 0x201) = true := by decide

/-- C6: the pushed PC is 0x1000 -/
theorem test_call :
    gives (step (State.at (withRegs []) 0xFFE 0x2ABC)) (fun t => okAt t 0xABC && t.sp == 0x1FE && t.mem.read 0x1FE == 0x10 && t.mem.read 0x1FF == 0x00) = true := by decide

/-- C8 -/
theorem test_call_full :
    gives (step { State.at (withRegs []) 0x206 0x2300 with sp := 0 }) (fun t => errorAt t (.stackFault 0) 0x208 && t.sp == 0 && t.mem == [(0x206, 0x23)]) = true := by decide

/-- C13 -/
theorem test_seImm :
    gives (run 0x332A [(3, 0x2A)]) (fun t => okAt t 0x204) = true := by decide

/-- C14 -/
theorem test_seImm_not :
    gives (run 0x332B [(3, 0x2A)]) (fun t => okAt t 0x202) = true := by decide

/-- C18 -/
theorem test_sneImm :
    gives (run 0x4300 [(3, 0x2A)]) (fun t => okAt t 0x204) = true := by decide

/-- C16 -/
theorem test_sneImm_not :
    gives (run 0x4F01 [(15, 1)]) (fun t => okAt t 0x202) = true := by decide

/-- C19 -/
theorem test_seReg :
    gives (run 0x5AB0 [(10, 5), (11, 5)]) (fun t => okAt t 0x204) = true := by decide

/-- C20 -/
theorem test_seReg_not :
    gives (run 0x5AB0 [(10, 5), (11, 6)]) (fun t => okAt t 0x202) = true := by decide

/-- C23 -/
theorem test_sneReg :
    gives (run 0x9AB0 [(10, 5), (11, 6)]) (fun t => okAt t 0x204) = true := by decide

/-- C22 -/
theorem test_sneReg_not :
    gives (run 0x9330 [(3, 9)]) (fun t => okAt t 0x202) = true := by decide

/-- C25: no 12-bit wrap -/
theorem test_jpV0 :
    gives (run 0xBFFF [(0, 0xFF)]) (fun t => okAt t 0x10FE) = true := by decide

/-- C26: V2 is not used -/
theorem test_jpV0_only :
    gives (run 0xB2F1 [(2, 0x55)]) (fun t => okAt t 0x2F1) = true := by decide

/-- A42 -/
theorem test_ldImm :
    gives (run 0x6F7B [(15, 1)]) (fun t => okAt t 0x202 && t.reg 15 == 0x7B) = true := by decide

/-- A40 -/
theorem test_addImm :
    gives (run 0x7101 [(1, 0xFF), (15, 5)]) (fun t => okAt t 0x202 && t.reg 1 == 0 && t.reg 15 == 5) = true := by decide

/-- A41 -/
theorem test_addImm_flag :
    gives (run 0x7F01 [(15, 0xFF)]) (fun t => t.reg 15 == 0) = true := by decide

/-- A37 -/
theorem test_ldReg :
    gives (run 0x8120 [(1, 0x12), (2, 0x34), (15, 9)]) (fun t => okAt t 0x202 && t.reg 1 == 0x34 && t.reg 2 == 0x34 && t.reg 15 == 9) = true := by decide

/-- A33 -/
theorem test_orReg :
    gives (run 0x8121 [(1, 0xA5), (2, 0x5A), (15, 9)]) (fun t => okAt t 0x202 && t.reg 1 == 0xFF && t.reg 15 == 9) = true := by decide

/-- 42_register_alu R165, worked example -/
theorem test_andReg :
    gives (run 0x8122 [(1, 0xF3), (2, 0x3C), (15, 9)]) (fun t => okAt t 0x202 && t.reg 1 == 0x30 && t.reg 15 == 9) = true := by decide

/-- 42_register_alu R166, worked example -/
theorem test_xorReg :
    gives (run 0x8123 [(1, 0xFF), (2, 0x0F), (15, 9)]) (fun t => okAt t 0x202 && t.reg 1 == 0xF0 && t.reg 15 == 9) = true := by decide

/-- A3 -/
theorem test_addReg :
    gives (run 0x8124 [(1, 0x80), (2, 0x7F), (15, 9)]) (fun t => okAt t 0x202 && t.reg 1 == 0xFF && t.reg 15 == 0) = true := by decide

/-- A7: the flag remains -/
theorem test_addReg_flag :
    gives (run 0x8F14 [(15, 0xF0), (1, 0x20)]) (fun t => t.reg 15 == 1 && t.reg 1 == 0x20) = true := by decide

/-- A12 -/
theorem test_subReg :
    gives (run 0x8125 [(1, 0), (2, 1)]) (fun t => okAt t 0x202 && t.reg 1 == 0xFF && t.reg 15 == 0) = true := by decide

/-- A11 -/
theorem test_subReg_equal :
    gives (run 0x8125 [(1, 0x10), (2, 0x10)]) (fun t => t.reg 1 == 0 && t.reg 15 == 1) = true := by decide

/-- A16 -/
theorem test_subnReg :
    gives (run 0x8127 [(1, 0x20), (2, 0x10)]) (fun t => okAt t 0x202 && t.reg 1 == 0xF0 && t.reg 15 == 0) = true := by decide

/-- A20 -/
theorem test_subnReg_flag :
    gives (run 0x8F17 [(15, 3), (1, 5)]) (fun t => t.reg 15 == 1 && t.reg 1 == 5) = true := by decide

/-- A22: Vy is not the source -/
theorem test_shr :
    gives (run 0x8126 [(1, 1), (2, 0xAA)]) (fun t => okAt t 0x202 && t.reg 1 == 0 && t.reg 15 == 1 && t.reg 2 == 0xAA) = true := by decide

/-- A26: the shifted value remains -/
theorem test_shr_flag :
    gives (run 0x8F06 [(15, 6)]) (fun t => t.reg 15 == 3) = true := by decide

/-- A28 -/
theorem test_shl :
    gives (run 0x812E [(1, 0x80), (2, 0xAA)]) (fun t => okAt t 0x202 && t.reg 1 == 0 && t.reg 15 == 1 && t.reg 2 == 0xAA) = true := by decide

/-- A31 -/
theorem test_shl_flag :
    gives (run 0x8F0E [(15, 0x81)]) (fun t => t.reg 15 == 2) = true := by decide

/-- M1 -/
theorem test_ldI :
    gives (runI 0xAFFF [] 0xFFFF) (fun t => okAt t 0x202 && t.i == 0xFFF) = true := by decide

/-- M4 -/
theorem test_addI :
    gives (runI 0xF21E [(2, 1)] 0xFFF) (fun t => okAt t 0x202 && t.i == 0x1000 && t.reg 15 == 0) = true := by decide

/-- M6 -/
theorem test_addI_wrap :
    gives (runI 0xF21E [(2, 0xFF)] 0xFF80) (fun t => t.i == 0x007F) = true := by decide

/-- M11 and M12, on the operation: FONT_BASE is open. -/
theorem test_ldF : fontAddress 0 0xFF = 0x04FB ∧ fontAddress 0x050 0x03 = 0x005F := by decide

/-- Fx29 takes the address from the operation and FONT_BASE (43_index_memory R182). -/
theorem test_ldF_step : ∃ t, run 0xF429 [(4, 0x0A)] = .next t ∧ t.i = fontAddress Config.fontBase 0x0A ∧ t.pc = 0x202 := ⟨_, rfl, rfl, rfl⟩

/-- M19 -/
theorem test_ldB :
    gives (runI 0xF033 [(0, 0xFF)] 0xFFD) (fun t => okAt t 0x202 && t.mem == [(0x200, 0xF0), (0x201, 0x33), (0xFFD, 2), (0xFFE, 5), (0xFFF, 5)]) = true := by decide

/-- M20: nothing is written -/
theorem test_ldB_out :
    gives (runI 0xF033 [(0, 0xFF)] 0xFFE) (fun t => errorAt t (.addressOutOfRange 0xFFE 3) 0x202 && t.mem == [(0x200, 0xF0), (0x201, 0x33)]) = true := by decide

/-- M24 -/
theorem test_storeRegs :
    gives (runI 0xF255 [(0, 0x11), (1, 0x22), (2, 0x33), (3, 0x44)] 0x400) (fun t => okAt t 0x202 && t.i == 0x400 && t.mem.readBlock 0x400 4 == [0x11, 0x22, 0x33, 0x00]) = true := by decide

/-- M28 -/
theorem test_storeRegs_out :
    gives (runI 0xFF55 [(0, 0xA0)] 0xFF1) (fun t => errorAt t (.addressOutOfRange 0xFF1 16) 0x202 && t.mem.read 0xFF1 == 0) = true := by decide

/-- M30 -/
theorem test_loadRegs :
    gives (step { State.at { withRegs [(2, 9)] with mem := [(0xFFE, 0x11), (0xFFF, 0x22)] } 0x200 0xF165 with i := 0xFFE }) (fun t => okAt t 0x202 && t.reg 0 == 0x11 && t.reg 1 == 0x22 && t.reg 2 == 9 && t.i == 0xFFE) = true := by decide

/-- M31 -/
theorem test_loadRegs_out :
    gives (step { State.at { withRegs [(0, 9)] with mem := [(0xFFF, 0x22)] } 0x200 0xF165 with i := 0xFFF }) (fun t => errorAt t (.addressOutOfRange 0xFFF 2) 0x202 && t.reg 0 == 9) = true := by decide

/-- N9 -/
theorem test_rnd :
    gives (step { State.at (withRegs []) 0x200 0xC0F0 with prng := 1 }) (fun t => okAt t 0x202 && t.reg 0 == 0x20 && t.prng == 0x00042021) = true := by decide

/-- N4: a seed with bit 31 set tells a logical right shift from an arithmetic one. -/
theorem test_xorshift_logical : xorshift 0x80000000 = 0x80084000 ∧ xorshift 0x80084000 = 0x89088484 := by decide

/-- T17: the Clock runs first -/
theorem test_ldVxDt :
    gives (step { State.at (withRegs [] { quiet with elapsed := 16 }) 0x200 0xF107 with dt := 5 }) (fun t => okAt t 0x202 && t.reg 1 == 4 && t.dt == 4) = true := by decide

/-- T19 -/
theorem test_ldDtVx :
    gives (step { State.at (withRegs [(2, 0x3C)] { quiet with elapsed := 32 }) 0x200 0xF215 with dt := 2 }) (fun t => okAt t 0x202 && t.dt == 0x3C) = true := by decide

/-- T20 -/
theorem test_ldStVx :
    gives (run 0xF218 [(2, 0x3C)] { quiet with elapsed := 16 }) (fun t => okAt t 0x202 && t.st == 0x3C) = true := by decide

/-- K2 -/
theorem test_drw :
    gives (step { State.at { withRegs [(1, 0x0A), (2, 0x05), (15, 9)] { quiet with collided := true } with mem := [(0x300, 0xF0), (0x301, 0x90), (0x302, 0xF0)] } 0x200 0xD123 with i := 0x300 }) (fun t => okAt t 0x202 && t.reg 15 == 1 && t.sent == some (.dispDraw 0x0A 0x05 [0xF0, 0x90, 0xF0]) && t.i == 0x300) = true := by decide

/-- K6 -/
theorem test_drw_out :
    gives (runI 0xD12F [(15, 9)] 0xFF2) (fun t => errorAt t (.addressOutOfRange 0xFF2 15) 0x202 && t.reg 15 == 9 && t.sent == none) = true := by decide

/-- K14 -/
theorem test_skp :
    gives (run 0xE49E [(4, 0x1F)] { quiet with down := true }) (fun t => okAt t 0x204 && t.sent == some (.keyIsDown 0x1F)) = true := by decide

/-- K11 -/
theorem test_skp_not :
    gives (run 0xE49E [(4, 7)]) (fun t => okAt t 0x202) = true := by decide

/-- K13 -/
theorem test_sknp :
    gives (run 0xE4A1 [(4, 7)]) (fun t => okAt t 0x204 && t.sent == some (.keyIsDown 7)) = true := by decide

/-- K12 -/
theorem test_sknp_not :
    gives (run 0xE4A1 [(4, 7)] { quiet with down := true }) (fun t => okAt t 0x202) = true := by decide

/-- K15 -/
theorem test_ldVxK_key :
    gives (step (State.at (withRegs [] { quiet with key := some 0xB }) 0x210 0xF30A)) (fun t => okAt t 0x212 && t.reg 3 == 0x0B && t.wait == false && t.sent == some .keyEvent) = true := by decide

/-- K16 -/
theorem test_ldVxK_wait :
    gives (step (State.at (withRegs []) 0x210 0xF30A)) (fun t => t.result == some .waiting && t.pc == 0x210 && t.wait && t.waitx == 3 && t.reg 3 == 0) = true := by decide

/-! ### Ticks that execute nothing, the Clock, the host (95_test_vectors) -/

/-- K20: a wait tick does not fetch -/
theorem test_wait_key :
    gives (step { State.at (withRegs [] { quiet with key := some 2 }) 0x210 0xFFFF with wait := true, waitx := 3 }) (fun t => okAt t 0x212 && t.reg 3 == 2 && t.wait == false) = true := by decide

/-- K19: the Clock runs while waiting -/
theorem test_wait_clock :
    gives (step { State.at (withRegs [] { quiet with elapsed := 32 }) 0x210 0xF30A with wait := true, waitx := 3, dt := 5 }) (fun t => t.result == some .waiting && t.dt == 3 && t.pc == 0x210 && t.sent == some .keyEvent) = true := by decide

/-- C30 -/
theorem test_fetch_out :
    gives (step { withRegs [] with pc := 0xFFF }) (fun t => errorAt t (.addressOutOfRange 0xFFF 2) 0xFFF) = true := by decide

/-- C31 -/
theorem test_fetch_no_wrap :
    gives (step { withRegs [] with pc := 0xFFFF }) (fun t => errorAt t (.addressOutOfRange 0xFFFF 2) 0xFFFF) = true := by decide

/-- H2 -/
theorem test_empty_machine :
    gives (step { State.reset with inputs := [quiet] }) (fun t => errorAt t (.unknownOpcode 0) 0x202 && t.firstError == some (.unknownOpcode 0)) = true := by decide

/-- X20, S8 -/
theorem test_unknown :
    gives (run 0xFFFF [(1, 7)]) (fun t => errorAt t (.unknownOpcode 0xFFFF) 0x202 && t.reg 1 == 7 && t.sp == 0x200) = true := by decide

/-- 60_exceptions R239: the next tick runs normally, the model's record stays -/
theorem test_error_resumes :
    gives (step { State.at { withRegs [] with firstError := some (.stackFault 0), result := some (.error (.stackFault 0)) } 0x200 0x1234 with sent := some .keyEvent }) (fun t => okAt t 0x234 && t.firstError == some (.stackFault 0) && t.sent == none) = true := by decide

/-- T3, T6, T11: the Clock phase alone, the timers of one state. -/
def clocked (e l : Nat) (dt st : Byte) : Nat × Byte × Byte :=
  let s := clockPhase e { State.reset with leftover := l, dt := dt, st := st }
  (s.leftover, s.dt, s.st)

theorem test_clock : clocked 1 15 5 5 = (0, 4, 4) ∧ clocked 20 12 3 1 = (0, 1, 0) ∧ clocked 4080 0 255 255 = (0, 0, 0) := by decide

/-- T14: the sum is not cut to 32 bits. -/
theorem test_clock_huge : clocked 4294967295 15 255 0 = (14, 0, 0) := by decide

/-- S6: five times 4 ms and once 20 ms. -/
theorem test_clock_split : clocked 4 12 10 10 = (0, 9, 9) ∧ clocked 4 0 9 9 = (4, 9, 9) ∧ clocked 20 0 10 10 = (4, 9, 9) := by decide

/-- H4: a load that does not fit changes nothing. -/
theorem test_hostLoad_out : hostLoad 0xFFF [0xAA, 0xBB] State.reset = .error (.addressOutOfRange 0xFFF 2) := rfl

/-- H5, H6. -/
theorem test_hostLoad : (∃ t, hostLoad 0xFFE [0xAA, 0xBB] State.reset = .ok t ∧ t.mem = [(0xFFE, 0xAA), (0xFFF, 0xBB)]) ∧
    hostLoad 0x1000 [] State.reset = .ok State.reset := ⟨⟨_, rfl, rfl⟩, rfl⟩

/-- H7, H8: PC is stored as given, and a reset ends the wait. -/
theorem test_hostPc : hostGetPc (hostSetPc 0x0ABD State.reset) = 0x0ABD ∧
    (hostReset { State.reset with wait := true, mem := [(0, 1)] }).wait = false := by decide

/-- The cautious step stops where the machine reports an error (93 U1). -/
theorem test_guardedStep : guardedStep { State.reset with inputs := [quiet] } = .fault (.unknownOpcode 0) := rfl

/-- The host's placement runs as the very next step, from a pending wait and from a PC outside memory too (log 22). -/
theorem test_withFetchWord :
    gives (step (State.withFetchWord { withRegs [] with pc := 0xFFFF, wait := true } 16 0x1234)) (fun t => okAt t 0x234) = true := by
  decide

/-! ### Witnesses: the hypotheses of each obligation can be met -/

/-- A state with one word at 0x200, PC there, that executes the word's instruction. -/
def executing (w : Word) : State := State.at (withRegs []) 0x200 w

/-- The reset state with a known PRNG word and fixed inputs: it meets the invariant. -/
def sound : State := { withRegs [] with prng := 1 }


theorem witness_EncodeOfDecodeIsTheWord : decodeWord 0xD123 = some (.drw 1 2 3) := by decide

theorem witness_DecodedExactlyWhenARowMatches :
    decodeWord 0x8AB6 = some (.shr 10 11) ∧ (⟨0xF00F, 0x8006⟩ : OpcodeRow) ∈ opcodeRows ∧
    (⟨0xF00F, 0x8006⟩ : OpcodeRow).covers 0x8AB6 = true := by decide

/-- `Fx0A` and another instruction. -/
theorem witness_StepRunsTheDecodedInstruction :
    Executes (executing 0xF30A) (.ldVxK 3) ∧ Executes (executing 0x1234) (.jp 0x234) :=
  ⟨⟨rfl, by decide, rfl⟩, rfl, by decide, rfl⟩

/-- The last PC that fetches and the first that does not. -/
theorem witness_FetchReadsTwoBytesOrRaises :
    ({ sound with pc := 0xFFE } : State).pc.toNat ≤ 0xFFE ∧
    ({ sound with pc := 0xFFF } : State).wait = false ∧ 0xFFE < ({ sound with pc := 0xFFF } : State).pc.toNat := by decide

theorem witness_UndefinedWordRaisesUnknownOpcode :
    sound.wait = false ∧ sound.pc.toNat ≤ 0xFFE ∧
    decodeWord (joinBytes (sound.mem.read sound.pc.toNat) (sound.mem.read (sound.pc.toNat + 1))) = none := by decide

/-- A wait with a key and one without. -/
theorem witness_WaitTickCompletesOnAKey :
    ({ withRegs [] { quiet with key := some 7 } with wait := true } : State).wait = true ∧
    ({ withRegs [] { quiet with key := some 7 } with wait := true } : State).input.key = some 7 ∧
    ({ withRegs [] with wait := true } : State).wait = true ∧ ({ withRegs [] with wait := true } : State).input.key = none := by
  decide

theorem witness_StepKeepsTheInvariant : Inv sound ∧ ∃ t, step sound = .next t :=
  ⟨⟨rfl, by decide, by decide, by decide, by decide⟩, _, rfl⟩

/-- A tick that runs `Fx15`, one that runs `Fx18`, and one that runs neither. -/
theorem witness_EveryTickRunsTheClock :
    (∃ t, step (executing 0xF215) = .next t) ∧ (∃ t, step (executing 0xF218) = .next t) ∧ ∃ t, step sound = .next t :=
  ⟨⟨_, rfl⟩, ⟨_, rfl⟩, _, rfl⟩

theorem witness_WaitingResultMeansWaitMode :
    ∃ t, step (executing 0xF30A) = .next t ∧ t.result = some .waiting ∧ t.wait = true := ⟨_, rfl, rfl, rfl⟩

/-- A tick that enters the wait and one that leaves it. -/
theorem witness_WaitModeChangesOnlyByTheKeyWait :
    (∃ t, step (executing 0xF30A) = .next t ∧ (executing 0xF30A).wait = false ∧ t.wait = true) ∧
    ∃ t, step { withRegs [] { quiet with key := some 7 } with wait := true } = .next t ∧ t.wait = false :=
  ⟨⟨_, rfl, rfl, rfl⟩, _, rfl, rfl⟩

/-- A tick that runs `Cxkk` and one that does not. -/
theorem witness_OnlyRandomMovesThePrng :
    (∃ t, step (executing 0xC00F) = .next t ∧ Executes (executing 0xC00F) (.rnd 0 0x0F)) ∧
    ∃ t, step (executing 0x1234) = .next t ∧ ∀ x kk, ¬ Executes (executing 0x1234) (.rnd x kk) := by
  refine ⟨⟨_, rfl, rfl, by decide, rfl⟩, _, rfl, ?_⟩
  rintro x kk ⟨_, _, h⟩
  have h' : (Except.ok (.jp 0x234, []) : Except DecodeError (Instr × List Byte)) = .ok (.rnd x kk, []) := h
  simp at h'

/-- A call and a return. -/
theorem witness_OnlyCallAndReturnMoveSp :
    (∃ t, step (executing 0x2300) = .next t ∧ t.sp ≠ (executing 0x2300).sp) ∧
    ∃ t, step { executing 0x00EE with sp := 0x1FE } = .next t ∧ t.sp ≠ 0x1FE :=
  ⟨⟨_, rfl, by decide⟩, _, rfl, by decide⟩

theorem witness_OnlyThreeInstructionsStore :
    (∃ t, step (executing 0x2300) = .next t) ∧ (∃ t, step (executing 0xF033) = .next t) ∧
    (∃ t, step (executing 0xFF55) = .next t) ∧ ∃ t, step sound = .next t :=
  ⟨⟨_, rfl⟩, ⟨_, rfl⟩, ⟨_, rfl⟩, _, rfl⟩

/-- A register written by an instruction, and one written by a wait. -/
theorem witness_RegistersChangeOnlyInTheirWriteSet :
    (∃ t, step (executing 0x6A2F) = .next t ∧ t.reg 10 ≠ (executing 0x6A2F).reg 10) ∧
    ∃ t, step { withRegs [] { quiet with key := some 7 } with wait := true, waitx := 3 } = .next t ∧ t.reg 3 ≠ 0 :=
  ⟨⟨_, rfl, by decide⟩, _, rfl, by decide⟩

/-- Each of the four requests. -/
theorem witness_RequestsComeOnlyFromFiveInstructions :
    (∃ t, step (executing 0xF30A) = .next t ∧ t.sent = some .keyEvent) ∧
    (∃ t, step (executing 0x00E0) = .next t ∧ t.sent = some .dispClear) ∧
    (∃ t, step (executing 0xD121) = .next t ∧ t.sent = some (.dispDraw 0 0 [0])) ∧
    ∃ t, step (executing 0xE49E) = .next t ∧ t.sent = some (.keyIsDown 0) :=
  ⟨⟨_, rfl, rfl⟩, ⟨_, rfl, rfl⟩, ⟨_, rfl, rfl⟩, _, rfl, rfl⟩

/-- An error of the fetch and one of the dispatch. -/
theorem witness_ErrorTickLeavesTheRestUnchanged :
    (∃ t, step { sound with pc := 0xFFF } = .next t ∧ t.result = some (.error (.addressOutOfRange 0xFFF 2))) ∧
    ∃ t, step sound = .next t ∧ t.result = some (.error (.unknownOpcode 0)) := ⟨⟨_, rfl, rfl⟩, _, rfl, rfl⟩

/-- A tick after an error, and the first error. -/
theorem witness_FirstErrorIsSticky :
    (∃ t, step { sound with firstError := some (.stackFault 0) } = .next t) ∧
    ∃ t, step sound = .next t ∧ sound.firstError = none ∧ t.result = some (.error (.unknownOpcode 0)) :=
  ⟨⟨_, rfl⟩, _, rfl, rfl, rfl⟩

/-- The greatest sum of `Bnnn`, a skip at the last address, a waiting `Fx0A`, a call, and both ends of a wait tick at the last address. -/
theorem witness_PcStaysLowUnlessPopped :
    (∃ t, Executes { executing 0xBFFF with v := Vector.replicate 16 0xFF } (.jpV0 0xFFF) ∧ (.jpV0 0xFFF : Instr) ≠ .ret ∧
      step { executing 0xBFFF with v := Vector.replicate 16 0xFF } = .next t ∧ t.pc = 0x10FE) ∧
    (∃ t, Executes (State.at (withRegs []) 0xFFE 0x3000) (.seImm 0 0) ∧ step (State.at (withRegs []) 0xFFE 0x3000) = .next t ∧
      t.pc = 0x1002) ∧
    (∃ t, Executes (executing 0xF30A) (.ldVxK 3) ∧ step (executing 0xF30A) = .next t ∧ t.wait = true ∧ t.pc = 0x200) ∧
    (∃ t, Executes (executing 0x2300) (.call 0x300) ∧ step (executing 0x2300) = .next t ∧ t.pc = 0x300) ∧
    (∃ t, step { withRegs [] { quiet with key := some 7 } with wait := true, pc := 0xFFE } = .next t ∧ t.pc = 0x1000) ∧
    ∃ t, step { withRegs [] with wait := true, pc := 0xFFE } = .next t ∧ t.pc = 0xFFE :=
  ⟨⟨_, ⟨rfl, by decide, rfl⟩, by decide, rfl, by decide⟩, ⟨_, ⟨rfl, by decide, rfl⟩, rfl, by decide⟩,
    ⟨_, ⟨rfl, by decide, rfl⟩, rfl, rfl, rfl⟩, ⟨_, ⟨rfl, by decide, rfl⟩, rfl, by decide⟩, ⟨_, rfl, by decide⟩, _, rfl, rfl⟩

theorem witness_SoundTimerInfluencesNothing : ∃ t, step (executing 0xF107) = .next t := ⟨_, rfl⟩

/-- Timer and count equal, and a count far above the timer. -/
theorem witness_TimersSaturateAtZero : (5 : Byte).toNat ≤ 5 ∧ (255 : Byte).toNat ≤ 268435456 := by decide

theorem witness_ClockSplitsAreExact : ({ sound with leftover := 15 } : State).leftover < 16 := by decide

/-- The last block that fits and the first that does not, for a read and for a write. -/
theorem witness_MemReadAnswersTheBlockOrRaises : 1 ≤ 2 ∧ 0xFFE + 2 ≤ 4096 ∧ 4096 < 0xFFF + 2 := by decide

theorem witness_MemWriteChangesExactlyTheBlock :
    1 ≤ ([0xAA, 0xBB] : List Byte).length ∧ 0xFFE + ([0xAA, 0xBB] : List Byte).length ≤ 4096 ∧
    4096 < 0xFFF + ([0xAA, 0xBB] : List Byte).length := by decide

theorem witness_WordsAreBigEndian : 0xFFE ≤ 0xFFE ∧ 0xFFE < 0xFFF := by decide

theorem witness_CanonicalMemoriesAreDeterminedByTheirBytes :
    Memory.wf [(0, 1), (0xFFF, 2)] = true ∧ ∀ a, Memory.read [(0, 1), (0xFFF, 2)] a = Memory.read [(0, 1), (0xFFF, 2)] a :=
  ⟨by decide, fun _ => rfl⟩

/-- The least and the greatest SP at which a call completes. -/
theorem witness_CallPushesThePc :
    (2 ≤ ({ sound with sp := 2 } : State).sp.toNat ∧ ({ sound with sp := 2 } : State).sp.toNat ≤ 0x200) ∧
    (2 ≤ sound.sp.toNat ∧ sound.sp.toNat ≤ 0x200) := by decide

/-- The least and the greatest SP at which a return completes. -/
theorem witness_ReturnPopsThePc :
    ({ sound with sp := 0 } : State).sp.toNat + 2 ≤ 0x200 ∧ ({ sound with sp := 0x1FE } : State).sp.toNat + 2 ≤ 0x200 := by decide

/-- The boundary values of SP on the faulting sides. -/
theorem witness_StackFaultsOutsideTheRegion :
    ({ sound with sp := 1 } : State).sp.toNat < 2 ∧ ({ sound with sp := 0 } : State).sp.toNat < 2 ∧
    0x200 < ({ sound with sp := 0x1FF } : State).sp.toNat + 2 ∧ 0x200 < sound.sp.toNat + 2 := by decide

theorem witness_CallThenReturnRestores : 2 ≤ sound.sp.toNat ∧ sound.sp.toNat ≤ 0x200 := by decide

/-- The clause for a destination other than VF. -/
theorem witness_AddSetsCarry : (14 : RegIdx) ≠ VF := by decide
theorem witness_SubtractsSetNoBorrow : (14 : RegIdx) ≠ VF := by decide
theorem witness_ShiftsMoveOneBit : (14 : RegIdx) ≠ VF := by decide

theorem witness_BcdStoresThreeDigits : ({ sound with i := 0xFFD } : State).i.toNat ≤ 0xFFD := by decide

/-- The last address at which all sixteen registers fit, and at which one fits. -/
theorem witness_StoreRegistersWritesTheBlock :
    ({ sound with i := 0xFF0 } : State).i.toNat + (15 : RegIdx).val + 1 ≤ 4096 ∧
    ({ sound with i := 0xFFF } : State).i.toNat + (0 : RegIdx).val + 1 ≤ 4096 := by decide

theorem witness_LoadRegistersReadsTheBlock :
    ({ sound with i := 0xFF0 } : State).i.toNat + (15 : RegIdx).val + 1 ≤ 4096 ∧
    ({ sound with i := 0xFFF } : State).i.toNat + (0 : RegIdx).val + 1 ≤ 4096 ∧ (0 : RegIdx).val < (1 : RegIdx).val := by decide

theorem witness_StoreThenLoadRestoresRegisters :
    ({ sound with i := 0xFF0 } : State).i.toNat + (15 : RegIdx).val + 1 ≤ 4096 := by decide

/-- The first address at which each block does not fit. -/
theorem witness_BlocksOutsideMemoryRaise :
    0xFFD < ({ sound with i := 0xFFE } : State).i.toNat ∧
    4096 < ({ sound with i := 0xFF1 } : State).i.toNat + (15 : RegIdx).val + 1 ∧
    1 ≤ (15 : BitVec 4).toNat ∧ 4096 < ({ sound with i := 0xFF2 } : State).i.toNat + (15 : BitVec 4).toNat := by decide

/-- An empty sprite wherever I points, and the last full sprite that fits. -/
theorem witness_DrawSendsTheSpriteAndTakesTheReply :
    (0 : BitVec 4).toNat = 0 ∧ ({ sound with i := 0xFF1 } : State).i.toNat + (15 : BitVec 4).toNat ≤ 4096 := by decide

theorem witness_KeyWaitCompletesOrWaits :
    (withRegs [] { quiet with key := some 7 }).input.key = some 7 ∧ (withRegs []).input.key = none := by decide

theorem witness_HostLoadIsAllOrNothing :
    (0xFFE : Word).toNat + ([0xAA, 0xBB] : List Byte).length ≤ 4096 ∧ 1 ≤ ([0xAA, 0xBB] : List Byte).length ∧
    4096 < (0xFFF : Word).toNat + ([0xAA, 0xBB] : List Byte).length := by decide

theorem witness_SnapshotIsAllOfMemory : 4095 < 4096 := by decide

end Sys2Proof.Tests
end

section
/-!
PROOFS. Memory (20_memory): what `MemRead` and `MemWrite` answer inside memory and outside it.
-/

namespace Sys2Proof.Machine

/-! ### The two outcomes of an access -/

theorem memRead_of_fits (m : Memory) {addr n : Nat} (h : addr + n ≤ 4096) : memRead m addr n = .ok (m.readBlock addr n) := by
  rw [memRead_eq, if_pos (.inr h)]

theorem memRead_of_outside (m : Memory) {addr n : Nat} (hn : 1 ≤ n) (h : 4096 < addr + n) :
    memRead m addr n = .error (.addressOutOfRange addr n) := by
  rw [memRead_eq, if_neg (by omega)]

theorem memWrite_of_fits (m : Memory) {addr : Nat} {bs : List Byte} (h : addr + bs.length ≤ 4096) :
    memWrite m addr bs = .ok (m.writeBlock addr bs) := by
  rw [memWrite_eq, if_pos (.inr h)]

theorem memWrite_of_outside (m : Memory) {addr : Nat} {bs : List Byte} (hn : 1 ≤ bs.length) (h : 4096 < addr + bs.length) :
    memWrite m addr bs = .error (.addressOutOfRange addr bs.length) := by
  rw [memWrite_eq, if_neg (by omega)]

/-! ### The bytes of a block -/

theorem Memory.getElem?_readBlock (m : Memory) (k : Nat) {n j : Nat} (h : j < n) :
    (m.readBlock k n)[j]? = some (m.read (k + j)) := by
  have hj : j < (m.readBlock k n).length := by rwa [length_readBlock]
  rw [List.getElem?_eq_getElem hj, getElem_readBlock]

theorem Memory.some_read_writeBlock_inside (m : Memory) (k : Nat) {bs : List Byte} {j : Nat} (h : j < bs.length) :
    some ((m.writeBlock k bs).read (k + j)) = bs[j]? := by
  rw [read_writeBlock_inside bs m k j h, List.getElem?_eq_getElem h]

/-! ### The obligations -/

/-- Settles O29: a write that fits is `writeBlock`, whose bytes inside and outside the block are known; any other raises. -/
theorem memWriteChangesExactlyTheBlock : Obligations.MemWriteChangesExactlyTheBlock := by
  intro m addr bs hn
  constructor
  · intro hfits
    exact ⟨m.writeBlock addr bs, memWrite_of_fits m hfits, fun _ hj => Memory.some_read_writeBlock_inside m addr hj,
      fun a ha => Memory.read_writeBlock_outside bs m addr a ha⟩
  · exact memWrite_of_outside m hn

/-- Settles O28: a read that fits is `readBlock`, of the asked length and known byte by byte; any other raises. -/
theorem memReadAnswersTheBlockOrRaises : Obligations.MemReadAnswersTheBlockOrRaises := by
  intro m addr n hn
  constructor
  · intro hfits
    exact ⟨m.readBlock addr n, memRead_of_fits m hfits, Memory.length_readBlock m addr n,
      fun _ hj => Memory.getElem?_readBlock m addr hj⟩
  · exact memRead_of_outside m hn

end Sys2Proof.Machine
end

section
/-!
PROOFS. Control transfer (41_control_flow): the jumps and the skips are one move of PC and nothing else. Each has a lemma that gives the
new PC, and `completes_of_exec_eq_setPc` says once what such an instruction answers.
-/

namespace Sys2Proof.Machine

/-! ### An instruction that only moves PC -/

theorem changesOnly_setPc_setResult (s : State) (a : Word) (r : TickResult) :
    ChangesOnly [.pc, .result] [] s ((s.setPc a).setResult r) := by
  constructor
  · intro p hp
    cases p <;> simp_all [Part.same]
  · intro x _
    rfl

theorem completes_of_exec_eq_setPc {i : Instr} {s : State} {a : Word} (h : exec i s = done (s.setPc a)) :
    ∃ t, exec i s = .next t ∧ t.pc = a ∧ t.result = some .ok ∧ ChangesOnly [.pc, .result] [] s t :=
  ⟨(s.setPc a).setResult .ok, h, rfl, rfl, changesOnly_setPc_setResult s a .ok⟩

/-! ### Jumps (R141, R147) -/

theorem exec_jp (nnn : BitVec 12) (s : State) : exec (.jp nnn) s = done (s.setPc (addrImm nnn)) := rfl

theorem exec_jpV0 (nnn : BitVec 12) (s : State) :
    exec (.jpV0 nnn) s = done (s.setPc (addrImm nnn + zext16 (s.reg 0))) := rfl

/-- A 12-bit address and a byte add up without a wrap (R147). -/
theorem toNat_addrImm_add_zext16 (nnn : BitVec 12) (b : Byte) : (addrImm nnn + zext16 b).toNat = nnn.toNat + b.toNat := by
  have hn := nnn.isLt
  have hb := b.isLt
  rw [BitVec.toNat_add_of_lt (by rw [toNat_addrImm, toNat_zext16]; omega), toNat_addrImm, toNat_zext16]

/-- Settles O32: both jumps only move PC, and the sum of `Bnnn` does not wrap. -/
theorem jumpsSetPc : Obligations.JumpsSetPc := by
  intro s nnn
  constructor
  · obtain ⟨t, he, hpc, hrest⟩ := completes_of_exec_eq_setPc (exec_jp nnn s)
    exact ⟨t, he, by rw [hpc, toNat_addrImm], hrest⟩
  · obtain ⟨t, he, hpc, hrest⟩ := completes_of_exec_eq_setPc (exec_jpV0 nnn s)
    exact ⟨t, he, by rw [hpc, toNat_addrImm_add_zext16], hrest⟩

/-! ### Skips (R143 to R146) -/

/-- A skip on equal operands, as one move of PC. -/
theorem skipIf_beq (a b : Byte) (s : State) : skipIf (a == b) s = s.setPc (if a = b then s.pc + 2 else s.pc) := by
  simp only [skipIf_eq, beq_iff_eq]

/-- A skip on different operands, as one move of PC. -/
theorem skipIf_bne (a b : Byte) (s : State) : skipIf (a != b) s = s.setPc (if a = b then s.pc else s.pc + 2) := by
  simp only [skipIf_eq, bne_iff_ne, ite_not]

theorem exec_seImm (x : RegIdx) (kk : Byte) (s : State) :
    exec (.seImm x kk) s = done (s.setPc (if s.reg x = kk then s.pc + 2 else s.pc)) := by
  rw [← skipIf_beq]; rfl

theorem exec_sneImm (x : RegIdx) (kk : Byte) (s : State) :
    exec (.sneImm x kk) s = done (s.setPc (if s.reg x = kk then s.pc else s.pc + 2)) := by
  rw [← skipIf_bne]; rfl

theorem exec_seReg (x y : RegIdx) (s : State) :
    exec (.seReg x y) s = done (s.setPc (if s.reg x = s.reg y then s.pc + 2 else s.pc)) := by
  rw [← skipIf_beq]; rfl

theorem exec_sneReg (x y : RegIdx) (s : State) :
    exec (.sneReg x y) s = done (s.setPc (if s.reg x = s.reg y then s.pc else s.pc + 2)) := by
  rw [← skipIf_bne]; rfl

/-- Settles O33: each skip only moves PC, by two exactly when its test holds. -/
theorem skipsAddTwoWhenTheTestHolds : Obligations.SkipsAddTwoWhenTheTestHolds := fun s x y kk =>
  ⟨completes_of_exec_eq_setPc (exec_seImm x kk s), completes_of_exec_eq_setPc (exec_sneImm x kk s),
    completes_of_exec_eq_setPc (exec_seReg x y s), completes_of_exec_eq_setPc (exec_sneReg x y s)⟩

end Sys2Proof.Machine
end

section
/-!
PROOFS. Registers, arithmetic and logic (42_register_alu): an instruction of this family either writes one register, or writes a result
and then the flag. Each of the two shapes has one lemma that says what such an instruction answers, frame included; an instruction's
`exec` equation names its shape, and what is left is the arithmetic of a byte.
-/

namespace Sys2Proof.Machine

/-! ### The frames of the register writes -/

theorem changesOnly_setReg (s : State) (x : RegIdx) (b : Byte) : ChangesOnly [] [x] s (s.setReg x b) := by
  constructor
  · intro p _
    cases p <;> simp [Part.same]
  · intro r hr
    exact reg_setReg_other s b (List.ne_of_not_mem_cons hr)

theorem changesOnly_setResult (s : State) (r : TickResult) : ChangesOnly [.result] [] s (s.setResult r) := by
  constructor
  · intro p hp
    cases p <;> simp_all [Part.same]
  · intro _ _
    rfl

theorem changesOnly_writeResultThenFlag (s : State) (x : RegIdx) (b : Byte) (c : Bool) :
    ChangesOnly [] [x, VF] s (writeResultThenFlag x b c s) :=
  (changesOnly_setReg s x b).trans (changesOnly_setReg (s.setReg x b) VF (flagByte c))

/-! ### An instruction that writes one register (R161 to R166) -/

theorem completes_of_exec_eq_setReg {i : Instr} {s : State} {x : RegIdx} {b : Byte} (h : exec i s = done (s.setReg x b)) :
    ∃ t, exec i s = .next t ∧ t.reg x = b ∧ t.result = some .ok ∧ ChangesOnly [.result] [x] s t :=
  ⟨(s.setReg x b).setResult .ok, h, reg_setReg_same s x b, rfl,
    (changesOnly_setReg s x b).trans (changesOnly_setResult (s.setReg x b) .ok)⟩

theorem exec_ldImm (x : RegIdx) (kk : Byte) (s : State) : exec (.ldImm x kk) s = done (s.setReg x kk) := rfl

theorem exec_addImm (x : RegIdx) (kk : Byte) (s : State) : exec (.addImm x kk) s = done (s.setReg x (s.reg x + kk)) := rfl

theorem exec_ldReg (x y : RegIdx) (s : State) : exec (.ldReg x y) s = done (s.setReg x (s.reg y)) := rfl

theorem exec_orReg (x y : RegIdx) (s : State) : exec (.orReg x y) s = done (s.setReg x (s.reg x ||| s.reg y)) := rfl

theorem exec_andReg (x y : RegIdx) (s : State) : exec (.andReg x y) s = done (s.setReg x (s.reg x &&& s.reg y)) := rfl

theorem exec_xorReg (x y : RegIdx) (s : State) : exec (.xorReg x y) s = done (s.setReg x (s.reg x ^^^ s.reg y)) := rfl

/-- Settles O38: each of the three writes Vx only, and the sum of `7xkk` is the byte sum. -/
theorem loadsAndImmediateAdd : Obligations.LoadsAndImmediateAdd := by
  intro s x y kk
  refine ⟨completes_of_exec_eq_setReg (exec_ldImm x kk s), ?_, completes_of_exec_eq_setReg (exec_ldReg x y s)⟩
  obtain ⟨t, he, hreg, hrest⟩ := completes_of_exec_eq_setReg (exec_addImm x kk s)
  exact ⟨t, he, hreg ▸ BitVec.toNat_add (s.reg x) kk, hrest⟩

/-- Settles O39: each of the three writes Vx only, and a bit of the result is that operation on the bits. -/
theorem logicIsBitwise : Obligations.LogicIsBitwise := by
  intro s x y
  refine ⟨?_, ?_, ?_⟩
  · obtain ⟨t, he, hreg, hrest⟩ := completes_of_exec_eq_setReg (exec_orReg x y s)
    exact ⟨t, he, fun k => by rw [hreg, BitVec.getLsbD_or], hrest⟩
  · obtain ⟨t, he, hreg, hrest⟩ := completes_of_exec_eq_setReg (exec_andReg x y s)
    exact ⟨t, he, fun k => by rw [hreg, BitVec.getLsbD_and], hrest⟩
  · obtain ⟨t, he, hreg, hrest⟩ := completes_of_exec_eq_setReg (exec_xorReg x y s)
    exact ⟨t, he, fun k => by rw [hreg, BitVec.getLsbD_xor], hrest⟩

/-! ### An instruction that writes a result and then the flag (R167, R168, R170) -/

/-- The flag is written last, so it stands in VF also when VF is the destination (R160, decision D8). -/
theorem completes_of_exec_eq_writeResultThenFlag {i : Instr} {s : State} {x : RegIdx} {b : Byte} {c : Bool}
    (h : exec i s = done (writeResultThenFlag x b c s)) :
    ∃ t, exec i s = .next t ∧ (x ≠ VF → t.reg x = b) ∧ t.reg VF = flagByte c ∧ t.result = some .ok ∧
      ChangesOnly [.result] [x, VF] s t := by
  refine ⟨(writeResultThenFlag x b c s).setResult .ok, h, ?_, ?_, rfl,
    (changesOnly_writeResultThenFlag s x b c).trans (changesOnly_setResult _ .ok)⟩
  · intro hx
    rw [reg_setResult, reg_writeResultThenFlag, if_neg hx, if_pos rfl]
  · rw [reg_setResult, reg_writeResultThenFlag, if_pos rfl]

theorem exec_addReg (x y : RegIdx) (s : State) :
    exec (.addReg x y) s = done (writeResultThenFlag x (s.reg x + s.reg y) (carryOut (s.reg x) (s.reg y)) s) := rfl

theorem exec_subReg (x y : RegIdx) (s : State) :
    exec (.subReg x y) s = done (writeResultThenFlag x (s.reg x - s.reg y) (noBorrow (s.reg x) (s.reg y)) s) := rfl

theorem exec_subnReg (x y : RegIdx) (s : State) :
    exec (.subnReg x y) s = done (writeResultThenFlag x (s.reg y - s.reg x) (noBorrow (s.reg y) (s.reg x)) s) := rfl

theorem toNat_flagByte_carryOut (a b : Byte) : (flagByte (carryOut a b)).toNat = if a.toNat + b.toNat > 255 then 1 else 0 := by
  simp only [flagByte_toNat, carryOut, decide_eq_true_eq]

theorem toNat_flagByte_noBorrow (a b : Byte) : (flagByte (noBorrow a b)).toNat = if a.toNat ≥ b.toNat then 1 else 0 := by
  simp only [flagByte_toNat, noBorrow, decide_eq_true_eq, ge_iff_le]

/-- The difference of two bytes is the integer difference modulo 256 (R172). -/
theorem toNat_sub_eq_emod (a b : Byte) : ((a - b).toNat : Int) = ((a.toNat : Int) - b.toNat) % 256 := by
  have hb := b.isLt
  rw [BitVec.toNat_sub]
  omega

/-- Settles O40: the sum, then the carry, which stands in VF for every `x`. -/
theorem addSetsCarry : Obligations.AddSetsCarry := by
  intro s x y
  obtain ⟨t, he, hreg, hflag, hrest⟩ := completes_of_exec_eq_writeResultThenFlag (exec_addReg x y s)
  exact ⟨t, he, fun hx => hreg hx ▸ BitVec.toNat_add (s.reg x) (s.reg y), by rw [hflag, toNat_flagByte_carryOut], hrest⟩

/-- What a subtraction answers, whichever operand is taken from the other. -/
theorem completes_of_exec_eq_sub {i : Instr} {s : State} {x : RegIdx} {a b : Byte}
    (h : exec i s = done (writeResultThenFlag x (a - b) (noBorrow a b) s)) :
    ∃ t, exec i s = .next t ∧ (x ≠ VF → ((t.reg x).toNat : Int) = ((a.toNat : Int) - b.toNat) % 256) ∧
      (t.reg VF).toNat = (if a.toNat ≥ b.toNat then 1 else 0) ∧ t.result = some .ok ∧ ChangesOnly [.result] [x, VF] s t := by
  obtain ⟨t, he, hreg, hflag, hrest⟩ := completes_of_exec_eq_writeResultThenFlag h
  exact ⟨t, he, fun hx => by rw [hreg hx, toNat_sub_eq_emod], by rw [hflag, toNat_flagByte_noBorrow], hrest⟩

/-- Settles O41: `8xy5` and `8xy7` are one subtraction with the operands exchanged. -/
theorem subtractsSetNoBorrow : Obligations.SubtractsSetNoBorrow := fun s x y =>
  ⟨completes_of_exec_eq_sub (exec_subReg x y s), completes_of_exec_eq_sub (exec_subnReg x y s)⟩

end Sys2Proof.Machine
end

section
/-!
PROOFS. The index register (43_index_memory): an instruction that only moves I has one lemma that says what it answers, frame included;
VF is outside that frame, so there is no flag effect (R181).
-/

namespace Sys2Proof.Machine

/-! ### An instruction that only moves I -/

theorem changesOnly_setI (s : State) (a : Word) : ChangesOnly [.i] [] s (s.setI a) := by
  constructor
  · intro p hp
    cases p <;> simp_all [Part.same]
  · intro r _
    exact reg_setI s r a

theorem completes_of_exec_eq_setI {i : Instr} {s : State} {a : Word} (h : exec i s = done (s.setI a)) :
    ∃ t, exec i s = .next t ∧ t.i = a ∧ t.result = some .ok ∧ ChangesOnly [.i, .result] [] s t :=
  ⟨(s.setI a).setResult .ok, h, rfl, rfl, (changesOnly_setI s a).trans (changesOnly_setResult (s.setI a) .ok)⟩

/-! ### Loading I and adding to it (R180, R181) -/

theorem exec_ldI (nnn : BitVec 12) (s : State) : exec (.ldI nnn) s = done (s.setI (addrImm nnn)) := rfl

theorem exec_addI (x : RegIdx) (s : State) : exec (.addI x) s = done (s.setI (s.i + zext16 (s.reg x))) := rfl

/-- A byte added to a word wraps at 65536, not at the end of memory (R181). -/
theorem toNat_add_zext16 (w : Word) (b : Byte) : (w + zext16 b).toNat = (w.toNat + b.toNat) % 65536 := by
  rw [BitVec.toNat_add, toNat_zext16]

/-- Settles O43: both instructions only move I, to the 12-bit address and to the sum modulo 65536. -/
theorem indexLoadAndAdd : Obligations.IndexLoadAndAdd := by
  intro s x nnn
  constructor
  · obtain ⟨t, he, hi, hrest⟩ := completes_of_exec_eq_setI (exec_ldI nnn s)
    exact ⟨t, he, by rw [hi, toNat_addrImm], hrest⟩
  · obtain ⟨t, he, hi, hrest⟩ := completes_of_exec_eq_setI (exec_addI x s)
    exact ⟨t, he, by rw [hi, toNat_add_zext16], hrest⟩

end Sys2Proof.Machine
end

section
/-!
PROOFS. The timers (44_random_timers): `Fx07` is a register write, and `Fx15` and `Fx18` each move one timer. Each timer move has one
lemma for its frame, which leaves the other timer, LEFTOVER and every register as they were.
-/

namespace Sys2Proof.Machine

/-! ### The frames of the timer writes -/

theorem changesOnly_setDt (s : State) (a : Byte) : ChangesOnly [.dt] [] s (s.setDt a) := by
  constructor
  · intro p hp
    cases p <;> simp_all [Part.same]
  · intro r _
    exact reg_setDt s r a

theorem changesOnly_setSt (s : State) (a : Byte) : ChangesOnly [.st] [] s (s.setSt a) := by
  constructor
  · intro p hp
    cases p <;> simp_all [Part.same]
  · intro r _
    exact reg_setSt s r a

/-! ### The three timer instructions (R202 to R204) -/

theorem exec_ldVxDt (x : RegIdx) (s : State) : exec (.ldVxDt x) s = done (s.setReg x s.dt) := rfl

theorem exec_ldDtVx (x : RegIdx) (s : State) : exec (.ldDtVx x) s = done (s.setDt (s.reg x)) := rfl

theorem exec_ldStVx (x : RegIdx) (s : State) : exec (.ldStVx x) s = done (s.setSt (s.reg x)) := rfl

/-- Settles O51: each instruction is one write, of Vx, DT or ST, and then completes. -/
theorem timerInstructionsMoveBytes : Obligations.TimerInstructionsMoveBytes := by
  intro s x
  refine ⟨completes_of_exec_eq_setReg (exec_ldVxDt x s), ?_, ?_⟩
  · exact ⟨(s.setDt (s.reg x)).setResult .ok, exec_ldDtVx x s, rfl, rfl,
      (changesOnly_setDt s (s.reg x)).trans (changesOnly_setResult _ .ok)⟩
  · exact ⟨(s.setSt (s.reg x)).setResult .ok, exec_ldStVx x s, rfl, rfl,
      (changesOnly_setSt s (s.reg x)).trans (changesOnly_setResult _ .ok)⟩

end Sys2Proof.Machine
end

section
/-!
PROOFS. Display and keypad (45_display_keypad): the requests of the core. Sending a request has one lemma for its frame, and an
instruction that only sends has one lemma that says what it answers.
-/

namespace Sys2Proof.Machine

/-! ### The frame of a request -/

theorem changesOnly_send (r : Request) (s : State) : ChangesOnly [.sent] [] s (send r s) := by
  constructor
  · intro p hp
    cases p <;> simp_all [Part.same]
  · intro x _
    exact reg_send s x r

/-! ### An instruction that only sends a request -/

theorem completes_of_exec_eq_send {i : Instr} {s : State} {r : Request} (h : exec i s = done (send r s)) :
    ∃ t, exec i s = .next t ∧ t.sent = some r ∧ t.result = some .ok ∧ ChangesOnly [.sent, .result] [] s t :=
  ⟨(send r s).setResult .ok, h, rfl, rfl, (changesOnly_send r s).trans (changesOnly_setResult (send r s) .ok)⟩

/-! ### Clearing the screen (R210) -/

theorem exec_cls (s : State) : exec .cls s = done (send .dispClear s) := rfl

/-- Settles O52: `00E0` sends one DISP_CLEAR and then completes. -/
theorem clearScreenOnlySends : Obligations.ClearScreenOnlySends := fun s => completes_of_exec_eq_send (exec_cls s)

end Sys2Proof.Machine
end

section
/-!
PROOFS. The Clock (60_exceptions): the decrement of a timer, a byte minus a count of whole periods.
-/

namespace Sys2Proof.Machine

/-! ### The decrement of a timer (R252) -/

/-- The natural subtraction of the model is the saturating subtraction of the integers. -/
theorem toNat_countDown_eq_max (timer : Byte) (n : Nat) : ((countDown timer n).toNat : Int) = max 0 ((timer.toNat : Int) - n) := by
  rw [countDown_toNat]
  omega

theorem countDown_eq_zero_iff (timer : Byte) (n : Nat) : countDown timer n = 0 ↔ timer.toNat ≤ n := by
  rw [← BitVec.toNat_inj, countDown_toNat]
  exact Nat.sub_eq_zero_iff_le

/-- Settles O26: the decrement is zero exactly when the count has reached the timer, which for a timer at 0 is every count. -/
theorem timersSaturateAtZero : Obligations.TimersSaturateAtZero := fun timer n =>
  ⟨toNat_countDown_eq_max timer n, (countDown_eq_zero_iff 0 n).mpr (Nat.zero_le n), (countDown_eq_zero_iff timer n).mpr⟩

end Sys2Proof.Machine
end

section
/-!
PROOFS. Reset and host transactions (70_reset_and_hazards): the two transactions on PC. Setting it is one write of PC.
-/

namespace Sys2Proof.Machine

/-! ### The frame of a write of PC -/

theorem changesOnly_setPc (s : State) (a : Word) : ChangesOnly [.pc] [] s (s.setPc a) := by
  constructor
  · intro p hp
    cases p <;> simp_all [Part.same]
  · intro r _
    exact reg_setPc s r a

/-! ### HOST_SET_PC and HOST_GET_PC (R277) -/

theorem hostSetPc_eq_setPc (v : Word) (s : State) : hostSetPc v s = s.setPc v := rfl

theorem hostGetPc_eq_pc (s : State) : hostGetPc s = s.pc := rfl

theorem transact_getPc (s : State) : transact .getPc s = .next (s, .pc (hostGetPc s)) := rfl

/-- Settles O58: HOST_SET_PC is the one write of PC, with its frame, and HOST_GET_PC answers the PC beside the same state. -/
theorem hostSetsAndGetsThePc : Obligations.HostSetsAndGetsThePc := by
  intro s v
  rw [hostSetPc_eq_setPc, transact_getPc, hostGetPc_eq_pc]
  exact ⟨setPc_pc s v, changesOnly_setPc s v, rfl, rfl⟩

end Sys2Proof.Machine
end

section
/-!
PROOFS. The decoder and the encoder (30_encoding): a word is its fields put together in any of the three forms; so what a group of the
decoder answers is encoded as the fields it was given, and an encoded word decodes by its own fields.
-/

namespace Sys2Proof

/-! ### A word is its fields put together (R91, R92) -/

theorem formNNN_fields {w : Word} {op : BitVec 4} (h : (fieldOp w).toNat = op.toNat) : formNNN op (fieldNNN w) = w := by
  apply BitVec.eq_of_toNat_eq
  rw [fieldOp_toNat] at h
  rw [formNNN_toNat, fieldNNN_toNat]
  omega

theorem formXKK_fields {w : Word} {op : BitVec 4} (h : (fieldOp w).toNat = op.toNat) :
    formXKK op (regOf (fieldX w)) (fieldKK w) = w := by
  apply BitVec.eq_of_toNat_eq
  rw [fieldOp_toNat] at h
  rw [formXKK_toNat, regOf_val, fieldX_toNat, fieldKK_toNat]
  omega

theorem formXYN_fields {w : Word} {op : BitVec 4} (h : (fieldOp w).toNat = op.toNat) :
    formXYN op (regOf (fieldX w)) (regOf (fieldY w)) (fieldN w) = w := by
  apply BitVec.eq_of_toNat_eq
  rw [fieldOp_toNat] at h
  rw [formXYN_toNat, regOf_val, regOf_val, fieldX_toNat, fieldY_toNat, fieldN_toNat]
  omega

/-! ### What a group answers is encoded as the fields it was given (R94) -/

theorem encode_of_decodeGroup0 {w : Word} {i : Instr} (h : decodeGroup0 w = some i) : encode i = w := by
  unfold decodeGroup0 at h
  split_ifs at h with hcls hret
  · cases h
    exact hcls.symm
  · cases h
    exact hret.symm

theorem encode_of_decodeGroup8 {x y : RegIdx} {n : BitVec 4} {i : Instr} (h : decodeGroup8 x y n = some i) :
    encode i = formXYN 0x8 x y n := by
  unfold decodeGroup8 at h
  split at h <;> cases h
  all_goals exact congrArg (formXYN 0x8 x y) (BitVec.eq_of_toNat_eq (Eq.symm ‹_›))

theorem encode_of_decodeGroupE {x : RegIdx} {kk : Byte} {i : Instr} (h : decodeGroupE x kk = some i) :
    encode i = formXKK 0xE x kk := by
  unfold decodeGroupE at h
  split_ifs at h with hkk <;> cases h
  all_goals simp only [*]; rfl

theorem encode_of_decodeGroupF {x : RegIdx} {kk : Byte} {i : Instr} (h : decodeGroupF x kk = some i) :
    encode i = formXKK 0xF x kk := by
  unfold decodeGroupF at h
  split_ifs at h <;> cases h
  all_goals simp only [*]; rfl

/-- Encoding undoes decoding. -/
theorem encode_of_decodeWord {w : Word} {i : Instr} (h : decodeWord w = some i) : encode i = w := by
  unfold decodeWord at h
  split at h
  next => exact encode_of_decodeGroup0 h
  next hop => cases h; exact formNNN_fields hop
  next hop => cases h; exact formNNN_fields hop
  next hop => cases h; exact formXKK_fields hop
  next hop => cases h; exact formXKK_fields hop
  next hop =>
    split_ifs at h with hn
    cases h
    rw [encode, ← hn, formXYN_fields hop]
  next hop => cases h; exact formXKK_fields hop
  next hop => cases h; exact formXKK_fields hop
  next hop => exact (encode_of_decodeGroup8 h).trans (formXYN_fields hop)
  next hop =>
    split_ifs at h with hn
    cases h
    rw [encode, ← hn, formXYN_fields hop]
  next hop => cases h; exact formNNN_fields hop
  next hop => cases h; exact formNNN_fields hop
  next hop => cases h; exact formXKK_fields hop
  next hop => cases h; exact formXYN_fields hop
  next hop => exact (encode_of_decodeGroupE h).trans (formXKK_fields hop)
  next =>
    have hF : (fieldOp w).toNat = 15 := by
      have hlt := (fieldOp w).isLt
      simp only [imp_false] at *
      omega
    exact (encode_of_decodeGroupF h).trans (formXKK_fields hF)

/-- Decoding undoes encoding. -/
theorem decodeWord_encode (i : Instr) : decodeWord (encode i) = some i := by
  cases i with
  | cls | ret => decide
  | jp | call | ldI | jpV0 => simp [encode, decodeWord]
  | seImm | sneImm | ldImm | addImm | rnd => simp [encode, decodeWord]
  | seReg | sneReg | drw => simp [encode, decodeWord]
  | ldReg | orReg | andReg | xorReg | addReg | subReg | shr | subnReg | shl => simp [encode, decodeWord, decodeGroup8]
  | skp | sknp => simp [encode, decodeWord, formX, decodeGroupE]
  | ldVxDt | ldVxK | ldDtVx | ldStVx | addI | ldF | ldB | storeRegs | loadRegs =>
    simp [encode, decodeWord, formX, decodeGroupF]

/-- Settles O1: the two bytes join to the encoded word again, which decodes by its own fields. -/
theorem decodeOfEncodeIsTheInstruction : Obligations.DecodeOfEncodeIsTheInstruction := by
  intro i rest
  show decode (highByte (encode i) :: lowByte (encode i) :: rest) = _
  rw [decode, Machine.joinBytes_high_low, decodeWord_encode]

/-- Settles O2: each group is encoded as the fields it was given, and the fields of a word make the word. -/
theorem encodeOfDecodeIsTheWord : Obligations.EncodeOfDecodeIsTheWord := fun _ _ => encode_of_decodeWord

/-! ### The masks and matches of the opcode map (R95) -/

open Laws.EncodesItsRow in
/-- The laws of `EncodesItsRow`, one per constructor, as one statement about every instruction. -/
theorem row_covers_encode : ∀ i : Instr, i.row.covers (encode i) = true
  | .cls => cls | .ret => ret | .jp a => jp a | .call a => call a | .ldI a => ldI a | .jpV0 a => jpV0 a
  | .seImm x k => seImm x k | .sneImm x k => sneImm x k | .seReg x y => seReg x y | .sneReg x y => sneReg x y
  | .ldImm x k => ldImm x k | .addImm x k => addImm x k | .ldReg x y => ldReg x y | .orReg x y => orReg x y
  | .andReg x y => andReg x y | .xorReg x y => xorReg x y | .addReg x y => addReg x y | .subReg x y => subReg x y
  | .shr x y => shr x y | .subnReg x y => subnReg x y | .shl x y => shl x y | .rnd x k => rnd x k
  | .drw x y n => drw x y n | .skp x => skp x | .sknp x => sknp x | .ldVxDt x => ldVxDt x | .ldVxK x => ldVxK x
  | .ldDtVx x => ldDtVx x | .ldStVx x => ldStVx x | .addI x => addI x | .ldF x => ldF x | .ldB x => ldB x
  | .storeRegs x => storeRegs x | .loadRegs x => loadRegs x

theorem OpcodeRow.covers_iff (r : OpcodeRow) (w : Word) : r.covers w = true ↔ w &&& r.mask = r.bits := by
  simp only [covers, beq_iff_eq]

/-- A bit field that the mask keeps whole is the field of the match. -/
theorem OpcodeRow.extract_eq_of_covers {r : OpcodeRow} {w : Word} (h : r.covers w = true) (k n : Nat)
    (hm : r.mask.toNat / 2 ^ k % 2 ^ n = 2 ^ n - 1) :
    w.extractLsb' k n = BitVec.ofNat n (r.bits.toNat / 2 ^ k % 2 ^ n) := by
  have hones : r.mask.extractLsb' k n = BitVec.allOnes n :=
    BitVec.eq_of_toNat_eq (by rw [toNat_extract_eq, hm, BitVec.toNat_allOnes])
  rw [← toNat_extract_eq, BitVec.ofNat_toNat, BitVec.setWidth_eq, ← (covers_iff r w).mp h, BitVec.extractLsb'_and, hones,
    BitVec.and_allOnes]

/-- A word that a row covers decodes to an instruction of that row. -/
theorem exists_decodeWord_of_covers (i : Instr) {w : Word} (h : i.row.covers w = true) :
    ∃ j, decodeWord w = some j ∧ j.row = i.row := by
  have hword (hm : i.row.mask = BitVec.allOnes 16) : w = i.row.bits := by
    rw [← (OpcodeRow.covers_iff _ w).mp h, hm, BitVec.and_allOnes]
  have hop : _ → fieldOp w = _ := OpcodeRow.extract_eq_of_covers h 12 4
  have hn : _ → fieldN w = _ := OpcodeRow.extract_eq_of_covers h 0 4
  have hkk : _ → fieldKK w = _ := OpcodeRow.extract_eq_of_covers h 0 8
  cases i with
  | cls | ret =>
    have hw : w = _ := hword (by decide)
    exact ⟨_, hw ▸ rfl, rfl⟩
  | jp | call | ldI | jpV0 | seImm | sneImm | ldImm | addImm | rnd | drw =>
    simp only [Instr.row, BitVec.ofNat_eq_ofNat, BitVec.toNat_ofNat, Nat.reducePow, Nat.reduceMod, Nat.reduceDiv,
      Nat.reduceSub, forall_const] at hop
    unfold decodeWord
    rw [hop]
    exact ⟨_, rfl, rfl⟩
  | seReg | sneReg | ldReg | orReg | andReg | xorReg | addReg | subReg | shr | subnReg | shl =>
    simp only [Instr.row, BitVec.ofNat_eq_ofNat, BitVec.toNat_ofNat, Nat.reducePow, Nat.reduceMod, Nat.reduceDiv,
      Nat.reduceSub, forall_const] at hop hn
    unfold decodeWord
    rw [hop, hn]
    exact ⟨_, rfl, rfl⟩
  | skp | sknp | ldVxDt | ldVxK | ldDtVx | ldStVx | addI | ldF | ldB | storeRegs | loadRegs =>
    simp only [Instr.row, BitVec.ofNat_eq_ofNat, BitVec.toNat_ofNat, Nat.reducePow, Nat.reduceMod, Nat.reduceDiv,
      Nat.reduceSub, forall_const] at hop hkk
    unfold decodeWord
    rw [hop, hkk]
    exact ⟨_, rfl, rfl⟩

theorem exists_row_eq_of_mem_opcodeRows {r : OpcodeRow} (h : r ∈ opcodeRows) : ∃ i : Instr, i.row = r := by
  simp only [opcodeRows, List.mem_append, List.mem_map] at h
  obtain ((⟨i, _, hi⟩ | ⟨i, _, hi⟩) | ⟨i, _, hi⟩) | ⟨i, _, hi⟩ := h
  all_goals exact ⟨i, hi⟩

/-- Settles O3: a decoded word is an encoded one, which its row covers; and a covered word has the fields its row fixes, which is what
the decoder looks at. -/
theorem decodedExactlyWhenARowMatches : Obligations.DecodedExactlyWhenARowMatches := by
  intro w
  constructor
  · intro i hi
    rw [← encode_of_decodeWord hi]
    exact row_covers_encode i
  · intro r hr hcovers
    obtain ⟨i, rfl⟩ := exists_row_eq_of_mem_opcodeRows hr
    exact exists_decodeWord_of_covers i hcovers

/-! ### The undefined words (R96) -/

theorem decodeGroup0_eq_none_iff (w : Word) : decodeGroup0 w = none ↔ w ≠ 0x00E0 ∧ w ≠ 0x00EE := by
  unfold decodeGroup0
  split_ifs <;> simp_all

theorem decodeGroup8_eq_none_iff (x y : RegIdx) (n : BitVec 4) :
    decodeGroup8 x y n = none ↔ n ∈ ([0x8, 0x9, 0xA, 0xB, 0xC, 0xD, 0xF] : List (BitVec 4)) := by
  obtain ⟨n, hn⟩ := n
  interval_cases n <;> simp [decodeGroup8]

theorem decodeGroupE_eq_none_iff (x : RegIdx) (kk : Byte) :
    decodeGroupE x kk = none ↔ kk ∉ ([0x9E, 0xA1] : List Byte) := by
  unfold decodeGroupE
  split_ifs <;> simp_all

theorem decodeGroupF_eq_none_iff (x : RegIdx) (kk : Byte) :
    decodeGroupF x kk = none ↔ kk ∉ ([0x07, 0x0A, 0x15, 0x18, 0x1E, 0x29, 0x33, 0x55, 0x65] : List Byte) := by
  unfold decodeGroupF
  split_ifs <;> simp_all

/-- Settles O4: by the major opcode; each of the six has the undefined words of its group, and the ten others have none. -/
theorem undefinedWordsAreTheSixSets : Obligations.UndefinedWordsAreTheSixSets := by
  intro w
  unfold decodeWord
  generalize fieldOp w = op
  obtain ⟨op, hop⟩ := op
  interval_cases op <;>
    simp [decodeGroup0_eq_none_iff, decodeGroup8_eq_none_iff, decodeGroupE_eq_none_iff, decodeGroupF_eq_none_iff]

/-- Settles O5: twelve closed words, evaluated. -/
theorem wordsOfTheSpecDecode : Obligations.WordsOfTheSpecDecode := by
  unfold Obligations.WordsOfTheSpecDecode
  decide

end Sys2Proof
end

section
/-!
PROOFS. Memory as words and as data (20_memory): the two bytes of a word, both ways; and that a canonical list is determined by what it
reads.
-/

namespace Sys2Proof.Machine

/-! ### Words (R65 to R67) -/

theorem toNat_joinBytes (hi lo : Byte) : (joinBytes hi lo).toNat = hi.toNat * 256 + lo.toNat := toNat_append_eq hi lo

theorem toNat_highByte (w : Word) : (highByte w).toNat = w.toNat / 256 := by
  have hw := w.isLt
  rw [highByte_toNat]
  omega

theorem toNat_lowByte (w : Word) : (lowByte w).toNat = w.toNat % 256 := by
  rw [lowByte_toNat, Nat.div_one]

theorem Memory.read_writeBlock_pair_first (m : Memory) (k : Nat) (a b : Byte) : (m.writeBlock k [a, b]).read k = a :=
  read_writeBlock_inside [a, b] m k 0 (by simp)

theorem Memory.read_writeBlock_pair_second (m : Memory) (k : Nat) (a b : Byte) : (m.writeBlock k [a, b]).read (k + 1) = b :=
  read_writeBlock_inside [a, b] m k 1 (by simp)

/-- Settles O30: a word is stored as the block of its high and its low byte, and joined from the same two bytes. -/
theorem wordsAreBigEndian : Obligations.WordsAreBigEndian := by
  refine ⟨?_, ?_, ?_⟩
  · intro m addr w haddr
    refine ⟨m.writeBlock addr [highByte w, lowByte w], ?_, ?_, ?_, ?_, ?_⟩
    · rw [memWriteWord_eq, if_pos (by omega)]
    · rw [Memory.read_writeBlock_pair_first, toNat_highByte]
    · rw [Memory.read_writeBlock_pair_second, toNat_lowByte]
    · exact fun a ha => Memory.read_writeBlock_outside _ m addr a ha
    · rw [memReadWord_eq, if_pos (by omega), Memory.read_writeBlock_pair_first, Memory.read_writeBlock_pair_second,
        joinBytes_high_low]
  · intro m addr haddr
    exact ⟨joinBytes (m.read addr) (m.read (addr + 1)), by rw [memReadWord_eq, if_pos (by omega)], toNat_joinBytes _ _⟩
  · intro m addr w haddr
    exact ⟨by rw [memWriteWord_eq, if_neg (by omega)], by rw [memReadWord_eq, if_neg (by omega)]⟩

/-! ### The canonical list -/

theorem Memory.wf_cons_iff (a : Nat) (b : Byte) (m : Memory) :
    wf ((a, b) :: m) = true ↔ a < Config.memSize ∧ b ≠ 0 ∧ (∀ c ∈ m, a < c.1) ∧ m.wf = true := by
  simp only [wf_iff, List.pairwise_cons, List.forall_mem_cons]
  tauto

theorem Memory.read_eq_zero_of_forall_lt {m : Memory} {k : Nat} (h : ∀ c ∈ m, k < c.1) : m.read k = 0 := by
  induction m with
  | nil => rfl
  | cons c m ih =>
    obtain ⟨hc, hm⟩ := List.forall_mem_cons.mp h
    rw [read, if_neg (Nat.ne_of_gt hc), ih hm]

theorem Memory.read_cons_same (a : Nat) (b : Byte) (m : Memory) : read ((a, b) :: m) a = b := if_pos rfl

theorem Memory.read_cons_other {a k : Nat} (b : Byte) (m : Memory) (h : a ≠ k) : read ((a, b) :: m) k = m.read k := if_neg h

/-- The lowest address of a canonical list is the lowest address that does not read zero. -/
theorem Memory.head_le_of_read_eq {a a' : Nat} {b b' : Byte} {m m' : Memory} (hm : wf ((a, b) :: m) = true)
    (hm' : wf ((a', b') :: m') = true) (h : ∀ k, read ((a, b) :: m) k = read ((a', b') :: m') k) : a' ≤ a := by
  obtain ⟨_, hb, _, _⟩ := (wf_cons_iff a b m).mp hm
  obtain ⟨_, _, hlt', _⟩ := (wf_cons_iff a' b' m').mp hm'
  by_contra hlt
  have hzero : read ((a', b') :: m') a = 0 :=
    read_eq_zero_of_forall_lt (List.forall_mem_cons.mpr ⟨by omega, fun c hc => Nat.lt_trans (by omega) (hlt' c hc)⟩)
  exact hb (by rw [← hzero, ← h, read_cons_same])

theorem Memory.eq_of_read_eq {m m' : Memory} (hm : m.wf = true) (hm' : m'.wf = true) (h : ∀ k, m.read k = m'.read k) :
    m = m' := by
  induction m generalizing m' with
  | nil =>
    cases m' with
    | nil => rfl
    | cons c m' => exact absurd ((h c.1).trans (read_cons_same _ _ m')).symm ((wf_cons_iff _ _ m').mp hm').2.1
  | cons c m ih =>
    cases m' with
    | nil => exact absurd ((h c.1).symm.trans (read_cons_same _ _ m)).symm ((wf_cons_iff _ _ m).mp hm).2.1
    | cons c' m' =>
      obtain ⟨a, b⟩ := c
      obtain ⟨a', b'⟩ := c'
      obtain rfl : a = a' := Nat.le_antisymm (head_le_of_read_eq hm' hm fun k => (h k).symm) (head_le_of_read_eq hm hm' h)
      obtain rfl : b = b' := by simpa only [read_cons_same] using h a
      obtain ⟨_, _, hlt, hm⟩ := (wf_cons_iff a b m).mp hm
      obtain ⟨_, _, hlt', hm'⟩ := (wf_cons_iff a b m').mp hm'
      refine congrArg _ (ih hm hm' fun k => ?_)
      by_cases hk : a = k
      · subst hk
        rw [read_eq_zero_of_forall_lt hlt, read_eq_zero_of_forall_lt hlt']
      · simpa only [read_cons_other _ _ hk] using h k

/-- Settles O31: by induction on the list; its head is the lowest address that does not read zero. -/
theorem canonicalMemoriesAreDeterminedByTheirBytes : Obligations.CanonicalMemoriesAreDeterminedByTheirBytes :=
  fun _ _ hm hm' h => Memory.eq_of_read_eq hm hm' h

end Sys2Proof.Machine
end

section
/-!
PROOFS. The frames of the state operations that the sections above do not need, and what an instruction answers that raises an error.
-/

namespace Sys2Proof.Machine

theorem changesOnly_refl (s : State) : ChangesOnly [] [] s s := by
  constructor
  · intro p _
    cases p <;> simp [Part.same]
  · exact fun _ _ => rfl

theorem changesOnly_setMem (s : State) (m : Memory) : ChangesOnly [.mem] [] s (s.setMem m) := by
  constructor
  · intro p hp
    cases p <;> simp_all [Part.same]
  · exact fun r _ => reg_setMem s r m

theorem changesOnly_setSp (s : State) (a : Word) : ChangesOnly [.sp] [] s (s.setSp a) := by
  constructor
  · intro p hp
    cases p <;> simp_all [Part.same]
  · exact fun r _ => reg_setSp s r a

theorem changesOnly_setPrng (s : State) (w : BitVec 32) : ChangesOnly [.prng] [] s (s.setPrng w) := by
  constructor
  · intro p hp
    cases p <;> simp_all [Part.same]
  · exact fun r _ => reg_setPrng s r w

theorem changesOnly_enterWait (s : State) (x : RegIdx) : ChangesOnly [.wait, .waitx] [] s (s.enterWait x) := by
  constructor
  · intro p hp
    cases p <;> simp_all [Part.same]
  · exact fun r _ => reg_enterWait s r x

theorem changesOnly_leaveWait (s : State) : ChangesOnly [.wait] [] s s.leaveWait := by
  constructor
  · intro p hp
    cases p <;> simp_all [Part.same]
  · exact fun r _ => reg_leaveWait s r

theorem changesOnly_clockPhase (e : Nat) (s : State) : ChangesOnly [.dt, .st, .leftover] [] s (clockPhase e s) := by
  constructor
  · intro p hp
    cases p <;> simp_all [Part.same]
  · exact fun r _ => reg_clockPhase s r e

theorem changesOnly_endTick (s : State) : ChangesOnly [.env] [] s (endTick s) := by
  constructor
  · intro p hp
    cases p <;> simp_all [Part.same]
  · exact fun r _ => reg_endTick s r

/-- An error changes nothing but the result and the record of the first error (60_exceptions R237). -/
theorem raises_of_exec_eq_raise {i : Instr} {s : State} {f : Fault} (h : exec i s = raise f s) :
    ∃ t, exec i s = .next t ∧ t.result = some (.error f) ∧ ChangesOnly [.result, .firstError] [] s t :=
  ⟨(s.noteError f).setResult (.error f), h, rfl, changesOnly_raise f s⟩

end Sys2Proof.Machine
end

section
/-!
PROOFS. The stack (41_control_flow): a call and a return, each with an equation for the state it leaves when SP allows it and one for the
error when SP does not.
-/

namespace Sys2Proof.Machine

/-! ### What a call and a return answer (R140, R142, R232) -/

/-- The state a call leaves: `w` pushed, PC at `nnn`. -/
def pushedAt (w : Word) (nnn : BitVec 12) (s : State) : State :=
  (((s.setMem (s.mem.writeBlock (s.sp.toNat - 2) [highByte w, lowByte w])).setSp (s.sp - 2)).setPc (addrImm nnn)).setResult .ok

theorem exec_call_of_room {s : State} (nnn : BitVec 12) (hlo : 2 ≤ s.sp.toNat) (hhi : s.sp.toNat ≤ 4096) :
    exec (.call nnn) s = .next (pushedAt s.pc nnn s) := by
  show execCall nnn s = _
  obtain ⟨hsp, _⟩ | ⟨_, _, hpush⟩ | ⟨hsp, _⟩ := push_cases s.pc s
  · omega
  · rw [execCall, hpush]
    rfl
  · omega

theorem exec_call_of_full {s : State} (nnn : BitVec 12) (h : s.sp.toNat < 2) :
    exec (.call nnn) s = raise (.stackFault s.sp) s := by
  show execCall nnn s = _
  obtain ⟨_, hpush⟩ | ⟨hsp, _, _⟩ | ⟨hsp, _⟩ := push_cases s.pc s
  · rw [execCall, hpush]
  · omega
  · omega

/-- The state a return leaves. -/
def popped (s : State) : State :=
  ((s.setSp (s.sp + 2)).setPc (joinBytes (s.mem.read s.sp.toNat) (s.mem.read (s.sp.toNat + 1)))).setResult .ok

theorem exec_ret_of_entry {s : State} (h : s.sp.toNat + 2 ≤ 0x200) : exec .ret s = .next (popped s) := by
  show execRet s = _
  obtain ⟨hsp, _⟩ | ⟨_, hpop⟩ := pop_cases s
  · omega
  · rw [execRet, hpop]
    rfl

theorem exec_ret_of_empty {s : State} (h : 0x200 < s.sp.toNat + 2) : exec .ret s = raise (.stackFault s.sp) s := by
  show execRet s = _
  obtain ⟨_, hpop⟩ | ⟨hsp, _⟩ := pop_cases s
  · rw [execRet, hpop]
  · omega

theorem changesOnly_pushedAt (w : Word) (nnn : BitVec 12) (s : State) :
    ChangesOnly [.mem, .sp, .pc, .result] [] s (pushedAt w nnn s) :=
  (changesOnly_setMem s _).trans ((changesOnly_setSp _ _).trans (changesOnly_setPc_setResult _ _ .ok))

theorem changesOnly_popped (s : State) : ChangesOnly [.sp, .pc, .result] [] s (popped s) :=
  (changesOnly_setSp s _).trans (changesOnly_setPc_setResult _ _ .ok)

/-! ### The obligations -/

/-- Settles O34: with room, the push is a two-byte block below SP. -/
theorem callPushesThePc : Obligations.CallPushesThePc := by
  intro s nnn hlo hhi
  refine ⟨pushedAt s.pc nnn s, exec_call_of_room nnn hlo (by omega), toNat_addrImm nnn, sp_sub_two hlo, ?_, ?_, ?_, rfl,
    changesOnly_pushedAt s.pc nnn s⟩
  · exact (congrArg BitVec.toNat (Memory.read_writeBlock_pair_first s.mem _ _ _)).trans (toNat_highByte s.pc)
  · have hlow := Memory.read_writeBlock_pair_second s.mem (s.sp.toNat - 2) (highByte s.pc) (lowByte s.pc)
    rw [show s.sp.toNat - 2 + 1 = s.sp.toNat - 1 by omega] at hlow
    exact (congrArg BitVec.toNat hlow).trans (toNat_lowByte s.pc)
  · exact fun a ha => Memory.read_writeBlock_outside _ s.mem _ a ha

/-- Settles O35: with an entry, the pop joins the two bytes at SP. -/
theorem returnPopsThePc : Obligations.ReturnPopsThePc := by
  intro s h
  refine ⟨popped s, exec_ret_of_entry h, toNat_joinBytes _ _, ?_, rfl, changesOnly_popped s⟩
  exact BitVec.toNat_add_of_lt (show s.sp.toNat + 2 < 2 ^ 16 by omega)

/-- Settles O36: outside the region both raise before anything is written. -/
theorem stackFaultsOutsideTheRegion : Obligations.StackFaultsOutsideTheRegion := fun _ nnn =>
  ⟨fun h => raises_of_exec_eq_raise (exec_call_of_full nnn h), fun h => raises_of_exec_eq_raise (exec_ret_of_empty h)⟩

/-- Settles O37: the return finds the two bytes the call has stored, and joins them to the word it pushed. -/
theorem callThenReturnRestores : Obligations.CallThenReturnRestores := by
  intro s nnn hlo hhi
  refine ⟨pushedAt s.pc nnn s, exec_call_of_room nnn hlo (by omega), fun p => ?_⟩
  have hsp : (s.sp - 2).toNat = s.sp.toNat - 2 := sp_sub_two hlo
  have hroom : (s.sp - 2).toNat + 2 ≤ 0x200 := by omega
  refine ⟨popped ((pushedAt s.pc nnn s).setPc p), exec_ret_of_entry hroom, ?_, ?_⟩
  · show joinBytes ((s.mem.writeBlock (s.sp.toNat - 2) _).read (s.sp - 2).toNat)
      ((s.mem.writeBlock (s.sp.toNat - 2) _).read ((s.sp - 2).toNat + 1)) = s.pc
    rw [hsp, Memory.read_writeBlock_pair_first, Memory.read_writeBlock_pair_second, joinBytes_high_low]
  · exact BitVec.sub_add_cancel s.sp 2

end Sys2Proof.Machine
end

section
/-!
PROOFS. The shifts (42_register_alu): flag first, then result, so that with `x = 0xF` the result remains (decision D8).
-/

namespace Sys2Proof.Machine

theorem changesOnly_writeFlagThenResult (s : State) (x : RegIdx) (b : Byte) (c : Bool) :
    ChangesOnly [] [x, VF] s (writeFlagThenResult x b c s) :=
  ((changesOnly_setReg s VF (flagByte c)).trans (changesOnly_setReg _ x b)).mono (List.nil_subset _) (by simp)

theorem completes_of_exec_eq_writeFlagThenResult {i : Instr} {s : State} {x : RegIdx} {b : Byte} {c : Bool}
    (h : exec i s = done (writeFlagThenResult x b c s)) :
    ∃ t, exec i s = .next t ∧ t.reg x = b ∧ (x ≠ VF → t.reg VF = flagByte c) ∧ t.result = some .ok ∧
      ChangesOnly [.result] [x, VF] s t := by
  refine ⟨(writeFlagThenResult x b c s).setResult .ok, h, ?_, ?_, rfl,
    (changesOnly_writeFlagThenResult s x b c).trans (changesOnly_setResult _ .ok)⟩
  · rw [reg_setResult, reg_writeFlagThenResult, if_pos rfl]
  · intro hx
    rw [reg_setResult, reg_writeFlagThenResult, if_neg hx.symm, if_pos rfl]

theorem exec_shr (x y : RegIdx) (s : State) :
    exec (.shr x y) s = done (writeFlagThenResult x (s.reg x >>> 1) (lowBit (s.reg x)) s) := rfl

theorem exec_shl (x y : RegIdx) (s : State) :
    exec (.shl x y) s = done (writeFlagThenResult x (s.reg x <<< 1) (highBit (s.reg x)) s) := rfl

theorem toNat_flagByte_lowBit (a : Byte) : (flagByte (lowBit a)).toNat = a.toNat % 2 := by
  simp only [flagByte_toNat, lowBit, BitVec.getLsbD, Nat.testBit_zero, decide_eq_true_eq]
  split <;> omega

theorem toNat_flagByte_highBit (a : Byte) : (flagByte (highBit a)).toNat = a.toNat / 128 := by
  have ha := a.isLt
  simp only [flagByte_toNat, highBit, BitVec.getLsbD, Nat.testBit_eq_decide_div_mod_eq, decide_eq_true_eq]
  split <;> omega

/-- Settles O42: the result is a quotient or a product by two, and the flag the digit that it drops. -/
theorem shiftsMoveOneBit : Obligations.ShiftsMoveOneBit := by
  intro s x y
  constructor
  · obtain ⟨t, he, hreg, hflag, hrest⟩ := completes_of_exec_eq_writeFlagThenResult (exec_shr x y s)
    refine ⟨t, he, ?_, fun hx => by rw [hflag hx, toNat_flagByte_lowBit], hrest⟩
    rw [hreg, BitVec.toNat_ushiftRight, Nat.shiftRight_eq_div_pow, Nat.pow_one]
  · obtain ⟨t, he, hreg, hflag, hrest⟩ := completes_of_exec_eq_writeFlagThenResult (exec_shl x y s)
    refine ⟨t, he, ?_, fun hx => by rw [hflag hx, toNat_flagByte_highBit], hrest⟩
    rw [hreg, BitVec.toNat_shiftLeft, Nat.shiftLeft_eq, Nat.pow_one]

end Sys2Proof.Machine
end

section
/-!
PROOFS. Font, digits and register blocks (43_index_memory): an instruction that stores a block at I has one lemma for the case that the
block fits and one for the case that it does not.
-/

namespace Sys2Proof.Machine

theorem exec_ldF (x : RegIdx) (s : State) : exec (.ldF x) s = done (s.setI (fontAddress Config.fontBase (s.reg x))) := rfl

/-- Settles O44: `Fx29` only moves I. -/
theorem fontAddressIsComputed : Obligations.FontAddressIsComputed := by
  intro s x
  obtain ⟨t, he, hi, hrest⟩ := completes_of_exec_eq_setI (exec_ldF x s)
  exact ⟨t, he, by rw [hi, fontAddress_toNat], hrest⟩

/-! ### An instruction that stores a block at I (R183, R184) -/

theorem completes_of_exec_eq_storeBlock {i : Instr} {s : State} {bs : List Byte} (h : exec i s = storeBlock bs s)
    (hfits : s.i.toNat + bs.length ≤ 4096) :
    ∃ t, exec i s = .next t ∧ t.mem = s.mem.writeBlock s.i.toNat bs ∧ MemSameOutside s.i.toNat bs.length s t ∧
      t.result = some .ok ∧ ChangesOnly [.mem, .result] [] s t :=
  ⟨(s.setMem (s.mem.writeBlock s.i.toNat bs)).setResult .ok, by rw [h, storeBlock_ok hfits, done_eq], rfl,
    fun a ha => Memory.read_writeBlock_outside bs s.mem s.i.toNat a ha, rfl,
    (changesOnly_setMem s _).trans (changesOnly_setResult _ .ok)⟩

theorem raises_of_exec_eq_storeBlock {i : Instr} {s : State} {bs : List Byte} (h : exec i s = storeBlock bs s)
    (hpos : 0 < bs.length) (hout : 4096 < s.i.toNat + bs.length) :
    ∃ t, exec i s = .next t ∧ t.result = some (.error (.addressOutOfRange s.i.toNat bs.length)) ∧
      ChangesOnly [.result, .firstError] [] s t :=
  raises_of_exec_eq_raise (h.trans (storeBlock_raise hpos hout))

theorem exec_ldB (x : RegIdx) (s : State) : exec (.ldB x) s = storeBlock (bcdDigits (s.reg x)) s := rfl

theorem exec_storeRegs (x : RegIdx) (s : State) : exec (.storeRegs x) s = storeBlock (s.regsUpTo x) s := rfl

/-- Settles O45: the three digits are bytes, and each stands in its place of the block. -/
theorem bcdStoresThreeDigits : Obligations.BcdStoresThreeDigits := by
  intro s x hi
  have hb := (s.reg x).isLt
  obtain ⟨t, he, hmem, hrest⟩ := completes_of_exec_eq_storeBlock (exec_ldB x s) (by rw [length_bcdDigits]; omega)
  have hdigit (j : Nat) (hj : j < 3) : t.mem.read (s.i.toNat + j) = (bcdDigits (s.reg x))[j] :=
    hmem ▸ Memory.read_writeBlock_inside (bcdDigits (s.reg x)) s.mem s.i.toNat j hj
  refine ⟨t, he, ?_, ?_, ?_, hrest⟩
  · rw [← Nat.add_zero s.i.toNat, hdigit 0 (by omega)]
    exact (BitVec.toNat_ofNat ..).trans (Nat.mod_eq_of_lt (by omega))
  · rw [hdigit 1 (by omega)]
    exact (BitVec.toNat_ofNat ..).trans (Nat.mod_eq_of_lt (by omega))
  · rw [hdigit 2 (by omega)]
    exact (BitVec.toNat_ofNat ..).trans (Nat.mod_eq_of_lt (by omega))

/-- What `Fx55` leaves at each address of its block. -/
theorem storeRegs_completes {s : State} {x : RegIdx} (h : s.i.toNat + x.val + 1 ≤ 4096) :
    ∃ t, exec (.storeRegs x) s = .next t ∧ (∀ r : RegIdx, r.val ≤ x.val → t.mem.read (s.i.toNat + r.val) = s.reg r) ∧
      MemSameOutside s.i.toNat (x.val + 1) s t ∧ t.result = some .ok ∧ ChangesOnly [.mem, .result] [] s t := by
  obtain ⟨t, he, hmem, hout, hrest⟩ := completes_of_exec_eq_storeBlock (exec_storeRegs x s) (by rw [length_regsUpTo]; omega)
  refine ⟨t, he, fun r hr => ?_, length_regsUpTo s x ▸ hout, hrest⟩
  have hlt : r.val < (s.regsUpTo x).length := by rw [length_regsUpTo]; omega
  rw [hmem, Memory.read_writeBlock_inside _ _ _ _ hlt, getElem_regsUpTo]

/-- Settles O46: the block is the register list, in its order. -/
theorem storeRegistersWritesTheBlock : Obligations.StoreRegistersWritesTheBlock := fun _ _ h => storeRegs_completes h

/-! ### Loading registers from a block at I (R185) -/

theorem exec_loadRegs_of_fits {s : State} {x : RegIdx} (h : s.i.toNat + x.val + 1 ≤ 4096) :
    exec (.loadRegs x) s = done (s.setRegList 0 (s.mem.readBlock s.i.toNat (x.val + 1))) := by
  show execLoadRegs x s = _
  rw [execLoadRegs, blockAddr, regCount, memRead_of_fits s.mem (by omega)]

theorem exec_loadRegs_of_outside {s : State} {x : RegIdx} (h : 4096 < s.i.toNat + x.val + 1) :
    exec (.loadRegs x) s = raise (.addressOutOfRange s.i.toNat (x.val + 1)) s := by
  show execLoadRegs x s = _
  rw [execLoadRegs, blockAddr, regCount, memRead_of_outside s.mem (by omega) (by omega)]

theorem reg_setRegList_readBlock (m : Memory) (k : Nat) (s : State) (x r : RegIdx) :
    (s.setRegList 0 (m.readBlock k (x.val + 1))).reg r = if r.val ≤ x.val then m.read (k + r.val) else s.reg r := by
  rw [reg_setRegList _ _ _ (by rw [Memory.length_readBlock]; omega)]
  simp only [Memory.getElem_readBlock, Memory.length_readBlock, Nat.sub_zero, Nat.zero_le, true_and, Nat.lt_succ_iff,
    dite_eq_ite]

theorem changesOnly_setRegList_readBlock (m : Memory) (k : Nat) (s : State) (x : RegIdx) :
    ChangesOnly [] ((List.finRange 16).filter (fun r => r.val ≤ x.val)) s
      (s.setRegList 0 (m.readBlock k (x.val + 1))) := by
  constructor
  · intro p _
    rw [setRegList_eq]
    cases p <;> simp [Part.same]
  · intro r hr
    rw [reg_setRegList_readBlock, if_neg (by simpa using hr)]

/-- Settles O47: the block is read whole and written to the registers in its order. -/
theorem loadRegistersReadsTheBlock : Obligations.LoadRegistersReadsTheBlock := by
  intro s x h
  refine ⟨_, exec_loadRegs_of_fits h, ?_, ?_, rfl,
    ((changesOnly_setRegList_readBlock s.mem s.i.toNat s x).trans (changesOnly_setResult _ .ok)).mono (by simp) (by simp)⟩
  · intro r hr
    rw [reg_setResult, reg_setRegList_readBlock, if_pos hr]
  · intro r hr
    rw [reg_setResult, reg_setRegList_readBlock, if_neg (by omega)]

/-- Settles O49: the load reads the block that the store has written, from the same I. -/
theorem storeThenLoadRestoresRegisters : Obligations.StoreThenLoadRestoresRegisters := by
  intro s x h
  obtain ⟨t, he, hmem, _, _, hparts, _⟩ := storeRegs_completes h
  refine ⟨t, he, fun v => ?_⟩
  have hi : t.i = s.i := hparts .i (by decide)
  refine ⟨_, exec_loadRegs_of_fits (show t.i.toNat + x.val + 1 ≤ 4096 by rw [hi]; exact h), fun r hr => ?_⟩
  rw [reg_setResult, reg_setRegList_readBlock, if_pos hr]
  show t.mem.read (t.i.toNat + r.val) = s.reg r
  rw [hi, hmem r hr]

end Sys2Proof.Machine
end

section
/-!
PROOFS. Drawing and keys (45_display_keypad): a request, with what the reply does to VF or to PC; and the blocks that do not fit.
-/

namespace Sys2Proof.Machine

/-! ### Drawing (R213) -/

theorem exec_drw_of_fits {s : State} (x y : RegIdx) {n : BitVec 4} (h : n.toNat = 0 ∨ s.i.toNat + n.toNat ≤ 4096) :
    exec (.drw x y n) s =
      done (setFlagIf s.input.collided (send (.dispDraw (s.reg x) (s.reg y) (s.mem.readBlock s.i.toNat n.toNat)) s)) := by
  show execDrw x y n s = _
  rw [execDrw, blockAddr, spriteLen, memRead_eq, if_pos h]

theorem exec_drw_of_outside {s : State} (x y : RegIdx) {n : BitVec 4} (hn : 1 ≤ n.toNat) (h : 4096 < s.i.toNat + n.toNat) :
    exec (.drw x y n) s = raise (.addressOutOfRange s.i.toNat n.toNat) s := by
  show execDrw x y n s = _
  rw [execDrw, blockAddr, spriteLen, memRead_of_outside s.mem hn h]

/-- Settles O53: the sprite is the block at I, and the flag is the reply. -/
theorem drawSendsTheSpriteAndTakesTheReply : Obligations.DrawSendsTheSpriteAndTakesTheReply := by
  intro s x y n h
  refine ⟨_, s.mem.readBlock s.i.toNat n.toNat, exec_drw_of_fits x y h, rfl, Memory.length_readBlock _ _ _,
    fun j hj => Memory.getElem?_readBlock s.mem _ hj, ?_, rfl,
    (changesOnly_send _ s).trans ((changesOnly_setReg _ VF _).trans (changesOnly_setResult _ .ok))⟩
  rw [reg_setResult, reg_setFlagIf, if_pos rfl, flagByte_toNat]

/-- Settles O48: each of the four checks its block before it does anything else. -/
theorem blocksOutsideMemoryRaise : Obligations.BlocksOutsideMemoryRaise := by
  intro s x y n
  refine ⟨fun h => ?_, fun h => ?_, fun h => ?_, fun hn h => ?_⟩
  · exact raises_of_exec_eq_storeBlock (exec_ldB x s) (by simp) (by rw [length_bcdDigits]; omega)
  · have hraise := raises_of_exec_eq_storeBlock (exec_storeRegs x s) (by simp) (by rw [length_regsUpTo]; omega)
    rwa [length_regsUpTo] at hraise
  · exact raises_of_exec_eq_raise (exec_loadRegs_of_outside h)
  · exact raises_of_exec_eq_raise (exec_drw_of_outside x y hn h)

/-! ### Skips on a key (R215, R218) -/

theorem completes_of_exec_eq_send_setPc {i : Instr} {s : State} {r : Request} {a : Word}
    (h : exec i s = done ((send r s).setPc a)) :
    ∃ t, exec i s = .next t ∧ t.sent = some r ∧ t.pc = a ∧ t.result = some .ok ∧ ChangesOnly [.pc, .sent, .result] [] s t :=
  ⟨((send r s).setPc a).setResult .ok, h, rfl, rfl, rfl,
    (changesOnly_setPc s a).trans ((changesOnly_send r _).trans (changesOnly_setResult _ .ok))⟩

theorem exec_skp (x : RegIdx) (s : State) :
    exec (.skp x) s = done ((send (.keyIsDown (s.reg x)) s).setPc (if s.input.down then s.pc + 2 else s.pc)) :=
  congrArg done (skipIf_eq s.input.down _)

theorem exec_sknp (x : RegIdx) (s : State) :
    exec (.sknp x) s = done ((send (.keyIsDown (s.reg x)) s).setPc (if s.input.down then s.pc else s.pc + 2)) := by
  show done (skipIf (!s.input.down) _) = _
  rw [skipIf_eq]
  cases s.input.down <;> rfl

/-- Settles O54: both send the byte of Vx and move PC by the reply. -/
theorem keySkipsFollowTheReply : Obligations.KeySkipsFollowTheReply := fun s x =>
  ⟨completes_of_exec_eq_send_setPc (exec_skp x s), completes_of_exec_eq_send_setPc (exec_sknp x s)⟩

/-! ### The key wait (R217) -/

theorem toNat_keyByte (k : BitVec 4) : (keyByte k).toNat = k.toNat := by
  rw [keyByte, BitVec.toNat_setWidth]
  omega

theorem exec_ldVxK_of_key {s : State} {k : BitVec 4} (x : RegIdx) (h : s.input.key = some k) :
    exec (.ldVxK x) s = .next (takeKey x k (send .keyEvent s)) := by
  show execLdVxK x s = _
  rw [execLdVxK, h]

theorem exec_ldVxK_of_no_key {s : State} (x : RegIdx) (h : s.input.key = none) :
    exec (.ldVxK x) s = .next (((send .keyEvent s).enterWait x).setResult .waiting) := by
  show execLdVxK x s = _
  rw [execLdVxK, h]

theorem toNat_reg_takeKey (x : RegIdx) (k : BitVec 4) (s : State) : ((takeKey x k s).reg x).toNat = k.toNat := by
  rw [takeKey, reg_setResult, reg_advancePc, reg_setReg_same, toNat_keyByte]

theorem changesOnly_takeKey (x : RegIdx) (k : BitVec 4) (s : State) : ChangesOnly [.pc, .result] [x] s (takeKey x k s) :=
  (changesOnly_setReg s x _).trans (changesOnly_setPc_setResult _ _ .ok)

/-- Settles O55: with a key it is taken at once, without one the wait mode is entered. -/
theorem keyWaitCompletesOrWaits : Obligations.KeyWaitCompletesOrWaits := by
  intro s x
  constructor
  · intro k hk
    refine ⟨_, exec_ldVxK_of_key x hk, toNat_reg_takeKey x k _, rfl, rfl, rfl, ?_⟩
    exact ((changesOnly_send .keyEvent s).trans (changesOnly_takeKey x k _)).mono (by simp) (by simp)
  · intro hk
    refine ⟨_, exec_ldVxK_of_no_key x hk, rfl, rfl, rfl, rfl, ?_⟩
    exact (changesOnly_enterWait s x).trans ((changesOnly_send .keyEvent _).trans (changesOnly_setResult _ .waiting))

end Sys2Proof.Machine
end

section
/-!
PROOFS. The random number generator (44_random_timers): the xorshift step in numbers, and that it keeps the word from being zero.
-/

namespace Sys2Proof.Machine

/-! ### The step in numbers (R200) -/

theorem toNat_xor_shiftLeft {w : Nat} (a : BitVec w) (k : Nat) :
    (a ^^^ (a <<< k)).toNat = a.toNat ^^^ (a.toNat * 2 ^ k % 2 ^ w) := by
  rw [BitVec.toNat_xor, BitVec.toNat_shiftLeft, Nat.shiftLeft_eq]

theorem toNat_xor_ushiftRight {w : Nat} (a : BitVec w) (k : Nat) : (a ^^^ (a >>> k)).toNat = a.toNat ^^^ (a.toNat / 2 ^ k) := by
  rw [BitVec.toNat_xor, BitVec.toNat_ushiftRight, Nat.shiftRight_eq_div_pow]

theorem exec_rnd (x : RegIdx) (kk : Byte) (s : State) :
    exec (.rnd x kk) s = done ((s.setPrng (xorshift s.prng)).setReg x ((xorshift s.prng).setWidth 8 &&& kk)) := rfl

/-- Settles O50: the three shifts one after another, and the low byte of the last word under the mask. -/
theorem randomIsMaskedAndAdvances : Obligations.RandomIsMaskedAndAdvances := by
  intro s x kk
  refine ⟨_, (s.prng ^^^ (s.prng <<< 13)).toNat, _, exec_rnd x kk s, toNat_xor_shiftLeft s.prng 13, rfl, ?_, ?_, rfl,
    (changesOnly_setPrng s _).trans ((changesOnly_setReg _ x _).trans (changesOnly_setResult _ .ok))⟩
  · show (xorshift s.prng).toNat = _
    rw [xorshift, toNat_xor_shiftLeft, toNat_xor_ushiftRight]
  · rw [reg_setResult, reg_setReg_same, BitVec.toNat_and, BitVec.toNat_setWidth]
    rfl

/-! ### The step is one to one at zero (R35) -/

/-- A word that is its own left shift has no lowest set bit. -/
theorem eq_zero_of_xor_shiftLeft_eq_zero {w : Nat} {a : BitVec w} {k : Nat} (hk : 0 < k) (h : a ^^^ (a <<< k) = 0) : a = 0 := by
  have ha : a = a <<< k := BitVec.xor_eq_zero_iff.mp h
  have hbits (j : Nat) : a.getLsbD j = false := by
    induction j using Nat.strong_induction_on with
    | _ j ih =>
      rw [ha, BitVec.getLsbD_shiftLeft]
      by_cases hj : j < k
      · simp [hj]
      · rw [ih (j - k) (by omega), Bool.and_false]
  exact BitVec.eq_of_getLsbD_eq fun j _ => by rw [hbits j, BitVec.ofNat_eq_ofNat, BitVec.getLsbD_zero]

/-- A word that is its own right shift has no highest set bit. -/
theorem eq_zero_of_xor_ushiftRight_eq_zero {w : Nat} {a : BitVec w} {k : Nat} (hk : 0 < k) (h : a ^^^ (a >>> k) = 0) : a = 0 := by
  have ha : a.toNat = a.toNat / 2 ^ k := by
    rw [← Nat.shiftRight_eq_div_pow, ← BitVec.toNat_ushiftRight, ← BitVec.xor_eq_zero_iff.mp h]
  apply BitVec.eq_of_toNat_eq
  by_contra hne
  have hpos : 0 < a.toNat := Nat.pos_of_ne_zero hne
  have hlt := Nat.div_lt_self hpos (Nat.one_lt_two_pow hk.ne')
  omega

theorem xorshift_ne_zero {a : BitVec 32} (h : a ≠ 0) : xorshift a ≠ 0 := fun h0 =>
  h (eq_zero_of_xor_shiftLeft_eq_zero (by decide)
    (eq_zero_of_xor_ushiftRight_eq_zero (by decide) (eq_zero_of_xor_shiftLeft_eq_zero (by decide) h0)))

end Sys2Proof.Machine
end

section
/-!
PROOFS. The Clock (60_exceptions): one phase in numbers, and phases one after another as one phase for the sum.
-/

namespace Sys2Proof.Machine

/-- Settles O25: the phase is one division with remainder, and each timer counts down by the quotient. -/
theorem clockPhaseCountsWholePeriods : Obligations.ClockPhaseCountsWholePeriods := fun e s =>
  ⟨rfl, countDown_toNat s.dt _, countDown_toNat s.st _, changesOnly_clockPhase e s⟩

theorem countDown_countDown (b : Byte) (m n : Nat) : countDown (countDown b m) n = countDown b (m + n) := by
  apply BitVec.eq_of_toNat_eq
  rw [countDown_toNat, countDown_toNat, countDown_toNat, Nat.sub_sub]

theorem countDown_zero (b : Byte) : countDown b 0 = b := by
  apply BitVec.eq_of_toNat_eq
  rw [countDown_toNat, Nat.sub_zero]

/-- Periods that are counted from the remainder of an earlier count add up to the periods of the sum. -/
theorem periods_add (d e l : Nat) : periods d l + periods e ((d + l) % Config.tickPeriodMs) = periods (d + e) l := by
  simp only [periods, Config.tickPeriodMs]
  omega

theorem clockPhase_clockPhase (d e : Nat) (s : State) : clockPhase e (clockPhase d s) = clockPhase (d + e) s := by
  have hleft : (e + (d + s.leftover) % Config.tickPeriodMs) % Config.tickPeriodMs
      = (d + e + s.leftover) % Config.tickPeriodMs := by
    simp only [Config.tickPeriodMs]
    omega
  simp only [clockPhase, countDown_countDown, periods_add, hleft]

theorem clockPhase_zero {s : State} (h : s.leftover < 16) : clockPhase 0 s = s := by
  have hleft : (0 + s.leftover) % Config.tickPeriodMs = s.leftover := by
    simp only [Config.tickPeriodMs]
    omega
  have hperiods : periods 0 s.leftover = 0 := by
    simp only [periods, Config.tickPeriodMs]
    omega
  simp only [clockPhase, hleft, hperiods, countDown_zero]

/-- Settles O27: by induction on the list of spans; two phases are one for the sum. -/
theorem clockSplitsAreExact : Obligations.ClockSplitsAreExact := by
  intro es
  induction es with
  | nil => exact fun s h => (clockPhase_zero h).symm
  | cons e es ih =>
    intro s _
    rw [List.foldl_cons, ih _ (Nat.mod_lt _ (by decide)), clockPhase_clockPhase, List.sum_cons]

end Sys2Proof.Machine
end

section
/-!
PROOFS. Reset and host transactions (70_reset_and_hazards): the values RESET leaves, the load and the snapshot.
-/

namespace Sys2Proof.Machine

/-- Settles O12: memory is empty, SP is the stack's base, LEFTOVER is 0, and the seed is not zero. -/
theorem resetMeetsTheInvariant : Obligations.ResetMeetsTheInvariant where
  mem := rfl
  spBound := by decide
  spEven := by decide
  leftover := by decide
  prng := prngSeed_ne_zero

theorem reg_hostReset (s : State) (r : RegIdx) : (hostReset s).reg r = 0 := Vector.getElem_replicate r.isLt

/-- Settles O56: every field of the reset state is written out; the seed is the one that takes an argument. -/
theorem resetValues : Obligations.ResetValues := fun s =>
  ⟨fun _ => rfl, reg_hostReset s, rfl, rfl, rfl, rfl, rfl, rfl, rfl, rfl, rfl, prngSeed_ne_zero⟩

theorem hostLoad_of_fits {base : Word} {data : List Byte} (s : State) (h : base.toNat + data.length ≤ 4096) :
    hostLoad base data s = .ok (s.setMem (s.mem.writeBlock base.toNat data)) := by
  rw [hostLoad, memWrite_of_fits s.mem h]

theorem hostLoad_of_outside {base : Word} {data : List Byte} (s : State) (hn : 1 ≤ data.length)
    (h : 4096 < base.toNat + data.length) : hostLoad base data s = .error (.addressOutOfRange base.toNat data.length) := by
  rw [hostLoad, memWrite_of_outside s.mem hn h]

/-- Settles O57: a load that fits is one block store; one that does not reports the error beside the same state; one of no bytes touches
nothing, whatever its base. -/
theorem hostLoadIsAllOrNothing : Obligations.HostLoadIsAllOrNothing := by
  intro s base data
  refine ⟨fun h => ?_, fun hn h => ?_, rfl⟩
  · exact ⟨_, hostLoad_of_fits s h, fun _ hj => Memory.some_read_writeBlock_inside s.mem _ hj,
      fun a ha => Memory.read_writeBlock_outside data s.mem _ a ha, changesOnly_setMem s _⟩
  · exact ⟨hostLoad_of_outside s hn h, by rw [transact, hostLoad_of_outside s hn h]⟩

/-- Settles O59: the snapshot is the block of all of memory. -/
theorem snapshotIsAllOfMemory : Obligations.SnapshotIsAllOfMemory := fun s =>
  ⟨Memory.length_readBlock s.mem 0 4096,
    fun a ha => (Memory.getElem?_readBlock s.mem 0 ha).trans (by rw [Nat.zero_add]), rfl⟩

end Sys2Proof.Machine
end

section
/-!
PROOFS. The step as an equation in each of its five cases (40_cycle R120), each with its frame: what a fetch error, an undefined word,
a wait tick and an instruction leave.
-/

namespace Sys2Proof.Machine

/-! ### The state an instruction executes in (R121, R125) -/

/-- Entering an instruction moves PC at most. -/
theorem changesOnly_enter (i : Instr) (s : State) : ChangesOnly [.pc] [] s (enter i s) := by
  unfold enter
  split
  · exact (changesOnly_refl s).mono (List.nil_subset _) (List.nil_subset _)
  · exact changesOnly_advancePc s

theorem changesOnly_entered (i : Instr) (s : State) : ChangesOnly [.pc, .dt, .st, .leftover, .sent] [] s (entered i s) :=
  ((changesOnly_beginTick s).trans (changesOnly_enter i (beginTick s))).mono (by simp) (by simp)

/-! ### The five cases -/

theorem step_eq_of_fetchError {s : State} (hw : s.wait = false) (hp : 4096 < s.pc.toNat + 2) :
    step s = .next (endTick (((beginTick s).noteError (.addressOutOfRange s.pc.toNat 2)).setResult
      (.error (.addressOutOfRange s.pc.toNat 2)))) := by
  rw [step_fetch_error hw hp, raise_eq, thenNext]

theorem step_eq_of_undefinedWord {s : State} (hw : s.wait = false) (hp : s.pc.toNat + 2 ≤ 4096)
    (hd : decodeWord (wordAtPc s) = none) :
    step s = .next (endTick (((advancePc (beginTick s)).noteError (.unknownOpcode (wordAtPc s))).setResult
      (.error (.unknownOpcode (wordAtPc s))))) := by
  rw [step_fetch_ok hw hp, runWord, hd]
  rfl

theorem step_eq_of_executes {s u : State} {i : Instr} (hi : Executes s i) (he : exec i (entered i s) = .next u) :
    step s = .next (endTick u) := by
  obtain ⟨hw, hp, hd⟩ := executes_iff.mp hi
  rw [step_fetch_ok hw hp, runWord, hd]
  exact congrArg (thenNext endTick) he

theorem step_eq_of_wait_key {s : State} {k : BitVec 4} (hw : s.wait = true) (hk : s.input.key = some k) :
    step s = .next (endTick (takeKey s.waitx k (send .keyEvent (beginTick s)).leaveWait)) := by
  rw [step_wait hw, waitPhase, input_beginTick, hk]
  rfl

theorem step_eq_of_wait_no_key {s : State} (hw : s.wait = true) (hk : s.input.key = none) :
    step s = .next (endTick ((send .keyEvent (beginTick s)).setResult .waiting)) := by
  rw [step_wait hw, waitPhase, input_beginTick, hk]
  rfl

/-- Settles O10: each case of the step answers a next state, and so does every instruction. -/
theorem everyStepAnswersANextState : Obligations.EveryStepAnswersANextState := by
  intro s
  by_cases hw : s.wait = true
  · cases hk : s.input.key with
    | some k => exact ⟨_, step_eq_of_wait_key hw hk⟩
    | none => exact ⟨_, step_eq_of_wait_no_key hw hk⟩
  have hw : s.wait = false := by simpa using hw
  by_cases hp : s.pc.toNat + 2 ≤ 4096
  · cases hd : decodeWord (wordAtPc s) with
    | some i =>
      obtain ⟨u, he, _⟩ := exec_cases i (entered i s)
      exact ⟨_, step_eq_of_executes (executes_iff.mpr ⟨hw, hp, hd⟩) he⟩
    | none => exact ⟨_, step_eq_of_undefinedWord hw hp hd⟩
  · exact ⟨_, step_eq_of_fetchError hw (by omega)⟩

/-! ### The frames of the ticks that run no instruction -/

/-- What an error in a tick changes, whether PC has been advanced or not (60_exceptions R237). -/
theorem changesOnly_errorTick {s u : State} (f : Fault) (h : ChangesOnly [.pc, .dt, .st, .leftover, .sent] [] s u) :
    ChangesOnly [.pc, .dt, .st, .leftover, .sent, .result, .firstError, .env] [] s
      (endTick ((u.noteError f).setResult (.error f))) :=
  h.trans ((changesOnly_raise f u).trans (changesOnly_endTick _))

theorem changesOnly_fetchErrorTick (f : Fault) (s : State) :
    ChangesOnly [.dt, .st, .leftover, .sent, .result, .firstError, .env] [] s
      (endTick (((beginTick s).noteError f).setResult (.error f))) :=
  (changesOnly_beginTick s).trans ((changesOnly_raise f _).trans (changesOnly_endTick _))

theorem changesOnly_undefinedWordTick (f : Fault) (s : State) :
    ChangesOnly [.pc, .dt, .st, .leftover, .sent, .result, .firstError, .env] [] s
      (endTick (((advancePc (beginTick s)).noteError f).setResult (.error f))) :=
  changesOnly_errorTick f
    (((changesOnly_beginTick s).trans (changesOnly_advancePc _)).mono (by simp) (by simp))

/-- Settles O7: the word of the fetch is the two bytes joined, high byte first; a fetch error is the Clock phase and the error. -/
theorem fetchReadsTwoBytesOrRaises : Obligations.FetchReadsTwoBytesOrRaises := by
  constructor
  · intro s hp
    exact ⟨wordAtPc s, by rw [fetch_eq, if_pos (by omega)], highByte_joinBytes _ _, lowByte_joinBytes _ _⟩
  · intro s hw hp
    exact ⟨_, step_eq_of_fetchError hw (by omega), rfl, rfl, changesOnly_fetchErrorTick _ s⟩

/-- Settles O8: an undefined word is the Clock phase, the PC advance and the error. -/
theorem undefinedWordRaisesUnknownOpcode : Obligations.UndefinedWordRaisesUnknownOpcode := by
  intro s hw hp hd
  exact ⟨_, step_eq_of_undefinedWord hw (by omega) hd, rfl, rfl, rfl, changesOnly_undefinedWordTick _ s⟩

theorem changesOnly_keyTakenTick (k : BitVec 4) (s : State) :
    ChangesOnly [.pc, .wait, .dt, .st, .leftover, .sent, .result, .env] [s.waitx] s
      (endTick (takeKey s.waitx k (send .keyEvent (beginTick s)).leaveWait)) :=
  ((changesOnly_beginTick s).trans ((changesOnly_send .keyEvent _).trans ((changesOnly_leaveWait _).trans
    ((changesOnly_takeKey s.waitx k _).trans (changesOnly_endTick _))))).mono (by simp) (by simp)

theorem changesOnly_keyAwaitedTick (s : State) :
    ChangesOnly [.dt, .st, .leftover, .sent, .result, .env] [] s (endTick ((send .keyEvent (beginTick s)).setResult .waiting)) :=
  ((changesOnly_beginTick s).trans ((changesOnly_send .keyEvent _).trans ((changesOnly_setResult _ .waiting).trans
    (changesOnly_endTick _)))).mono (by simp) (by simp)

/-- Settles O9: a wait tick is the Clock phase, the request, and, with a key, the end of the wait. -/
theorem waitTickCompletesOnAKey : Obligations.WaitTickCompletesOnAKey := by
  intro s hw
  constructor
  · intro k hk
    exact ⟨_, step_eq_of_wait_key hw hk, toNat_reg_takeKey s.waitx k _, rfl, rfl, rfl, rfl, changesOnly_keyTakenTick k s⟩
  · intro hk
    exact ⟨_, step_eq_of_wait_no_key hw hk, rfl, rfl, changesOnly_keyAwaitedTick s⟩

end Sys2Proof.Machine
end

section
/-!
PROOFS. What an instruction changes, from `Outcomes`: beside its own write set only the parts that record the tick.
-/

namespace Sys2Proof.Machine

/-- The parts an instruction may change beside its write set: the records of the tick, and the key wait. -/
def recordParts : List Part := [.sent, .wait, .waitx, .result, .firstError]

/-- EVERY INSTRUCTION STAYS INSIDE ITS WRITE SETS, however it ends (10_state R40). -/
theorem Outcomes.changesOnly {i : Instr} {s t : State} (h : Outcomes i s t) :
    ChangesOnly (recordParts ++ partWriteSet i) (regWriteSet i) s t := by
  cases h with
  | completed _ h =>
    refine h.mono (List.cons_subset.mpr ⟨by simp [recordParts], List.subset_append_right _ _⟩) (List.Subset.refl _)
  | errored f h => exact h ▸ (changesOnly_raise f s).mono (by simp [recordParts]) (List.nil_subset _)
  | waits x _ _ h =>
    exact h ▸ ((changesOnly_send .keyEvent s).trans ((changesOnly_enterWait _ x).trans
      (changesOnly_setResult _ .waiting))).mono (by simp [recordParts]) (List.nil_subset _)

theorem Outcomes.part_same {i : Instr} {s t : State} (h : Outcomes i s t) {p : Part} (hr : p ∉ recordParts)
    (hi : p ∉ partWriteSet i) : Part.same s t p :=
  h.changesOnly.1 p (by simp [hr, hi])

/-- No instruction uses up the inputs: `endTick` does. -/
theorem Outcomes.env_same {i : Instr} {s t : State} (h : Outcomes i s t) : t.inputs = s.inputs ∧ t.ticks = s.ticks :=
  h.part_same (p := .env) (by decide) (by cases i <;> simp [partWriteSet])

/-- Settles O6: the step is the instruction on the entered state, and then the inputs are used up. -/
theorem stepRunsTheDecodedInstruction : Obligations.StepRunsTheDecodedInstruction := by
  intro s i hi
  refine ⟨?_, ?_, fun h => entered_pc h s, entered_dt i s, entered_st i s, entered_leftover i s, entered_sent i s,
    changesOnly_entered i s⟩
  · obtain ⟨u, he, ho⟩ := exec_cases i (entered i s)
    obtain ⟨hinputs, hticks⟩ := ho.env_same
    refine ⟨u, he, ?_⟩
    rw [step_eq_of_executes hi he, endTick, hinputs, hticks, entered_inputs, entered_ticks]
  · rintro ⟨x, rfl⟩
    rfl

end Sys2Proof.Machine
end

section
/-!
PROOFS. Rules over every step (10_state): what a step changes beside the Clock's parts it changes through its one instruction, so a part
that moves names the few instructions whose write set holds it.
-/

namespace Sys2Proof.Machine

/-! ### What a step changes, and through what -/

/-- The parts that a tick may change whatever it runs: PC, the key wait and the records. -/
def tickParts : List Part := [.pc, .env] ++ recordParts

/-- After its Clock phase a tick changes PC, the key wait and the records; or it completes a key wait and writes V[WAITX] too; or it runs
an instruction, and changes what that may write too. -/
theorem step_frame {s t : State} (h : step s = .next t) :
    ChangesOnly tickParts [] (beginTick s) t ∨
    (s.wait = true ∧ (∃ k, s.input.key = some k) ∧ t.wait = false ∧ ChangesOnly tickParts [s.waitx] (beginTick s) t) ∨
    ∃ i u, Executes s i ∧ exec i (entered i s) = .next u ∧ t = endTick u ∧
      ChangesOnly (tickParts ++ partWriteSet i) (regWriteSet i) (beginTick s) t := by
  obtain ⟨u, rfl, ho⟩ := step_outcomes h
  cases ho with
  | keyTaken k hw hk h =>
    subst h
    refine .inr (.inl ⟨hw, ⟨k, hk⟩, rfl, ?_⟩)
    exact ((changesOnly_send .keyEvent _).trans ((changesOnly_leaveWait _).trans
      ((changesOnly_takeKey s.waitx k _).trans (changesOnly_endTick _)))).mono (by decide) (by simp)
  | keyAwaited _ _ h =>
    subst h
    exact .inl (((changesOnly_send .keyEvent _).trans ((changesOnly_setResult _ .waiting).trans
      (changesOnly_endTick _))).mono (by decide) (by simp))
  | fetchError _ _ h =>
    subst h
    exact .inl (((changesOnly_raise _ _).trans (changesOnly_endTick _)).mono (by decide) (by simp))
  | undefinedWord _ _ _ h =>
    subst h
    exact .inl (((changesOnly_advancePc _).trans ((changesOnly_raise _ _).trans (changesOnly_endTick _))).mono
      (by decide) (by simp))
  | ran i hi he h =>
    refine .inr (.inr ⟨i, u, hi, he, rfl, ?_⟩)
    refine ((changesOnly_enter i (beginTick s)).trans (h.changesOnly.trans (changesOnly_endTick u))).mono ?_ (by simp)
    intro p hp
    simp only [tickParts, List.mem_append, List.mem_cons, List.not_mem_nil, or_false] at hp ⊢
    tauto

/-- A part of the state beside PC, the key wait and the records is as the Clock phase left it, or the tick ran an instruction whose
write set holds it. -/
theorem step_part_cases {s t : State} (h : step s = .next t) {p : Part} (hp : p ∉ tickParts) :
    Part.same (beginTick s) t p ∨
    ∃ i u, Executes s i ∧ exec i (entered i s) = .next u ∧ t = endTick u ∧ p ∈ partWriteSet i := by
  obtain hs | ⟨_, _, _, hs⟩ | ⟨i, u, hi, he, ht, hs⟩ := step_frame h
  · exact .inl (hs.1 p hp)
  · exact .inl (hs.1 p hp)
  · by_cases hmem : p ∈ partWriteSet i
    · exact .inr ⟨i, u, hi, he, ht, hmem⟩
    · exact .inl (hs.1 p (by simp [hp, hmem]))

/-! ### Which instructions write a part -/

theorem leftover_not_mem_partWriteSet (i : Instr) : .leftover ∉ partWriteSet i := by cases i <;> simp [partWriteSet]

theorem wait_not_mem_partWriteSet (i : Instr) : .wait ∉ partWriteSet i := by cases i <;> simp [partWriteSet]

theorem firstError_not_mem_partWriteSet (i : Instr) : .firstError ∉ partWriteSet i := by cases i <;> simp [partWriteSet]

theorem eq_of_dt_mem_partWriteSet {i : Instr} (h : .dt ∈ partWriteSet i) : ∃ x, i = .ldDtVx x := by
  cases i <;> simp_all [partWriteSet]

theorem eq_of_st_mem_partWriteSet {i : Instr} (h : .st ∈ partWriteSet i) : ∃ x, i = .ldStVx x := by
  cases i <;> simp_all [partWriteSet]

theorem eq_of_prng_mem_partWriteSet {i : Instr} (h : .prng ∈ partWriteSet i) : ∃ x kk, i = .rnd x kk := by
  cases i <;> simp_all [partWriteSet]

theorem eq_of_sp_mem_partWriteSet {i : Instr} (h : .sp ∈ partWriteSet i) : i = .ret ∨ ∃ nnn, i = .call nnn := by
  cases i <;> simp_all [partWriteSet]

theorem eq_of_mem_mem_partWriteSet {i : Instr} (h : .mem ∈ partWriteSet i) :
    (∃ nnn, i = .call nnn) ∨ (∃ x, i = .ldB x) ∨ ∃ x, i = .storeRegs x := by
  cases i <;> simp_all [partWriteSet]

/-! ### The Clock, the PRNG and the registers (R33 to R35, R40) -/

theorem step_leftover {s t : State} (h : step s = .next t) : t.leftover = (s.input.elapsed + s.leftover) % 16 := by
  obtain hs | ⟨i, _, _, _, _, hmem⟩ := step_part_cases h (p := .leftover) (by decide)
  · exact hs
  · exact absurd hmem (leftover_not_mem_partWriteSet i)

/-- Settles O13: DT and ST are as the Clock phase left them, or the tick ran `Fx15` or `Fx18`. -/
theorem everyTickRunsTheClock : Obligations.EveryTickRunsTheClock := by
  intro s t h
  refine ⟨step_leftover h, ?_, ?_⟩
  · obtain hs | ⟨i, u, hi, he, rfl, hmem⟩ := step_part_cases h (p := .dt) (by decide)
    · exact .inl ((congrArg BitVec.toNat hs).trans (countDown_toNat s.dt _))
    · obtain ⟨x, rfl⟩ := eq_of_dt_mem_partWriteSet hmem
      cases he
      exact .inr ⟨x, hi, rfl⟩
  · obtain hs | ⟨i, u, hi, he, rfl, hmem⟩ := step_part_cases h (p := .st) (by decide)
    · exact .inl ((congrArg BitVec.toNat hs).trans (countDown_toNat s.st _))
    · obtain ⟨x, rfl⟩ := eq_of_st_mem_partWriteSet hmem
      cases he
      exact .inr ⟨x, hi, rfl⟩

/-- Settles O16: the one instruction whose write set holds the PRNG word moves it by one generator step. -/
theorem onlyRandomMovesThePrng : Obligations.OnlyRandomMovesThePrng := by
  intro s t h
  constructor
  · intro x kk hi
    have hstep := step_eq_of_executes hi (exec_rnd x kk (entered (.rnd x kk) s))
    cases h.symm.trans hstep
    rfl
  · intro hno
    obtain hs | ⟨i, _, hi, _, _, hmem⟩ := step_part_cases h (p := .prng) (by decide)
    · exact hs
    · obtain ⟨x, kk, rfl⟩ := eq_of_prng_mem_partWriteSet hmem
      exact absurd hi (hno x kk)

/-- Settles O19: a register is written by the instruction of the tick, or as V[WAITX] when a key ends the wait. -/
theorem registersChangeOnlyInTheirWriteSet : Obligations.RegistersChangeOnlyInTheirWriteSet := by
  intro s t h r hne
  obtain ⟨_, hs⟩ | ⟨hw, hk, ht, _, hs⟩ | ⟨i, _, hi, _, _, _, hs⟩ := step_frame h
  · exact absurd (hs r (List.not_mem_nil)) hne
  · exact .inr ⟨hw, hk, ht, by_contra fun hr => hne (hs r (by simpa using hr))⟩
  · exact .inl ⟨i, hi, by_contra fun hr => hne (hs r hr)⟩

/-! ### The stack pointer (R28, R30) -/

theorem exec_call_of_beyond {s : State} (nnn : BitVec 12) (h : 4096 < s.sp.toNat) :
    exec (.call nnn) s = raise (.addressOutOfRange (s.sp.toNat - 2) 2) s := by
  show execCall nnn s = _
  obtain ⟨hsp, _⟩ | ⟨_, hsp, _⟩ | ⟨_, hpush⟩ := push_cases s.pc s
  · omega
  · omega
  · rw [execCall, hpush]

/-- What a call leaves. -/
theorem exec_call_cases {s t : State} {nnn : BitVec 12} (h : exec (.call nnn) s = .next t) :
    (2 ≤ s.sp.toNat ∧ s.sp.toNat ≤ 4096 ∧ t = pushedAt s.pc nnn s) ∨ ∃ f, t = (s.noteError f).setResult (.error f) := by
  obtain hfull | hlo := Nat.lt_or_ge s.sp.toNat 2
  · rw [exec_call_of_full nnn hfull] at h
    cases h
    exact .inr ⟨_, rfl⟩
  obtain hhi | hbeyond := le_or_gt s.sp.toNat 4096
  · rw [exec_call_of_room nnn hlo hhi] at h
    cases h
    exact .inl ⟨hlo, hhi, rfl⟩
  · rw [exec_call_of_beyond nnn hbeyond] at h
    cases h
    exact .inr ⟨_, rfl⟩

/-- What a return leaves. -/
theorem exec_ret_cases {s t : State} (h : exec .ret s = .next t) :
    (s.sp.toNat + 2 ≤ 0x200 ∧ t = popped s) ∨ ∃ f, t = (s.noteError f).setResult (.error f) := by
  obtain hentry | hempty := le_or_gt (s.sp.toNat + 2) 0x200
  · rw [exec_ret_of_entry hentry] at h
    cases h
    exact .inl ⟨hentry, rfl⟩
  · rw [exec_ret_of_empty hempty] at h
    cases h
    exact .inr ⟨_, rfl⟩

/-- What a step does to SP. -/
theorem step_sp_cases {s t : State} (h : step s = .next t) :
    t.sp = s.sp ∨ (∃ nnn, Executes s (.call nnn) ∧ 2 ≤ s.sp.toNat ∧ t.sp = s.sp - 2) ∨
      (Executes s .ret ∧ s.sp.toNat + 2 ≤ 0x200 ∧ t.sp = s.sp + 2) := by
  obtain hs | ⟨i, u, hi, he, rfl, hmem⟩ := step_part_cases h (p := .sp) (by decide)
  · exact .inl hs
  · obtain rfl | ⟨nnn, rfl⟩ := eq_of_sp_mem_partWriteSet hmem
    · obtain ⟨hsp, rfl⟩ | ⟨f, rfl⟩ := exec_ret_cases he
      · exact .inr (.inr ⟨hi, hsp, rfl⟩)
      · exact .inl rfl
    · obtain ⟨hlo, _, rfl⟩ | ⟨f, rfl⟩ := exec_call_cases he
      · exact .inr (.inl ⟨nnn, hi, hlo, rfl⟩)
      · exact .inl rfl

/-- Settles O17: of the cases of SP two move it. -/
theorem onlyCallAndReturnMoveSp : Obligations.OnlyCallAndReturnMoveSp := by
  intro s t h hne
  obtain hs | ⟨nnn, hi, _, hs⟩ | ⟨hi, _, hs⟩ := step_sp_cases h
  · exact absurd hs hne
  · exact .inl ⟨nnn, hi, hs⟩
  · exact .inr ⟨hi, hs⟩

/-! ### Memory (20_memory R70) -/

/-- What a block store leaves. -/
theorem storeBlock_next_cases {bs : List Byte} {s t : State} (h : storeBlock bs s = .next t) :
    t.mem = s.mem ∨ (s.i.toNat + bs.length ≤ 4096 ∧ t.mem = s.mem.writeBlock s.i.toNat bs) := by
  obtain ⟨hfits, he⟩ | ⟨_, _, he⟩ := storeBlock_cases bs s
  · rw [he] at h
    cases h
    obtain hnil | hfits := hfits
    · exact .inl (by rw [List.length_eq_zero_iff.mp hnil]; rfl)
    · exact .inr ⟨hfits, rfl⟩
  · rw [he] at h
    cases h
    exact .inl rfl

theorem skipIf_mem (c : Bool) (s : State) : (skipIf c s).mem = s.mem := by cases c <;> rfl

theorem setRegList_mem (s : State) (k : Nat) (bs : List Byte) : (s.setRegList k bs).mem = s.mem := by rw [setRegList_eq]

/-- An instruction whose write set does not hold memory leaves the list itself alone, not only what it reads. -/
theorem exec_mem_eq {i : Instr} {s t : State} (h : exec i s = .next t) (hi : .mem ∉ partWriteSet i) : t.mem = s.mem := by
  cases i with
  | call _ | ldB _ | storeRegs _ => exact absurd (by simp [partWriteSet]) hi
  | ret =>
    obtain ⟨_, rfl⟩ | ⟨_, rfl⟩ := exec_ret_cases h
    · rfl
    · rfl
  | seImm _ _ | sneImm _ _ | seReg _ _ | sneReg _ _ | skp _ | sknp _ =>
    cases h
    exact skipIf_mem _ _
  | drw x y n =>
    by_cases hfits : n.toNat = 0 ∨ s.i.toNat + n.toNat ≤ 4096
    · rw [exec_drw_of_fits x y hfits] at h
      cases h
      rfl
    · rw [exec_drw_of_outside x y (by omega) (by omega)] at h
      cases h
      rfl
  | loadRegs x =>
    obtain hfits | hout := le_or_gt (s.i.toNat + x.val + 1) 4096
    · rw [exec_loadRegs_of_fits hfits] at h
      cases h
      exact setRegList_mem s 0 _
    · rw [exec_loadRegs_of_outside hout] at h
      cases h
      rfl
  | ldVxK x =>
    cases hk : s.input.key with
    | some k =>
      rw [exec_ldVxK_of_key x hk] at h
      cases h
      rfl
    | none =>
      rw [exec_ldVxK_of_no_key x hk] at h
      cases h
      rfl
  | cls | jp _ | jpV0 _ | ldImm _ _ | addImm _ _ | ldReg _ _ | orReg _ _ | andReg _ _ | xorReg _ _ | addReg _ _ | subReg _ _
  | shr _ _ | subnReg _ _ | shl _ _ | ldI _ | rnd _ _ | ldVxDt _ | ldDtVx _ | ldStVx _ | addI _ | ldF _ =>
    cases h
    rfl

/-- What a step does to the list of memory: nothing, or one block store, of the stack, the digits or the registers. -/
theorem step_mem_cases {s t : State} (h : step s = .next t) :
    t.mem = s.mem ∨ ∃ addr bs, addr + bs.length ≤ 4096 ∧ t.mem = s.mem.writeBlock addr bs ∧
      ((∃ nnn, Executes s (.call nnn) ∧ addr = s.sp.toNat - 2 ∧ bs.length = 2) ∨
       (∃ x, Executes s (.ldB x) ∧ addr = s.i.toNat ∧ bs.length = 3) ∨
       (∃ x : RegIdx, Executes s (.storeRegs x) ∧ addr = s.i.toNat ∧ bs.length = x.val + 1)) := by
  obtain ⟨u, rfl, ho⟩ := step_outcomes h
  cases ho with
  | keyTaken k _ _ h => exact .inl (h ▸ rfl)
  | keyAwaited _ _ h => exact .inl (h ▸ rfl)
  | fetchError _ _ h => exact .inl (h ▸ rfl)
  | undefinedWord _ _ _ h => exact .inl (h ▸ rfl)
  | ran i hi he _ =>
    rw [endTick_mem, ← entered_mem i s, ← entered_i i s, ← entered_sp i s]
    by_cases hmem : .mem ∈ partWriteSet i
    · obtain ⟨nnn, rfl⟩ | ⟨x, rfl⟩ | ⟨x, rfl⟩ := eq_of_mem_mem_partWriteSet hmem
      · obtain ⟨hlo, hhi, rfl⟩ | ⟨f, rfl⟩ := exec_call_cases he
        · exact .inr ⟨_, _, by simp only [List.length_cons, List.length_nil]; omega, rfl, .inl ⟨nnn, hi, rfl, rfl⟩⟩
        · exact .inl rfl
      · obtain hs | ⟨hfits, hs⟩ := storeBlock_next_cases he
        · exact .inl hs
        · exact .inr ⟨_, _, hfits, hs, .inr (.inl ⟨x, hi, rfl, rfl⟩)⟩
      · obtain hs | ⟨hfits, hs⟩ := storeBlock_next_cases he
        · exact .inl hs
        · exact .inr ⟨_, _, hfits, hs, .inr (.inr ⟨x, hi, rfl, length_regsUpTo _ x⟩)⟩
    · exact .inl (exec_mem_eq he hmem)

/-- Settles O18: a block store leaves every byte outside its block. -/
theorem onlyThreeInstructionsStore : Obligations.OnlyThreeInstructionsStore := by
  intro s t h
  obtain hs | ⟨addr, bs, _, hs, hwho⟩ := step_mem_cases h
  · exact .inl fun a _ => by rw [hs]
  have hout : MemSameOutside addr bs.length s t := fun a ha => hs ▸ Memory.read_writeBlock_outside bs s.mem addr a ha
  obtain ⟨nnn, hi, rfl, hlen⟩ | ⟨x, hi, rfl, hlen⟩ | ⟨x, hi, rfl, hlen⟩ := hwho
  · exact .inr (.inl ⟨nnn, hi, hlen ▸ hout⟩)
  · exact .inr (.inr (.inl ⟨x, hi, hlen ▸ hout⟩))
  · exact .inr (.inr (.inr ⟨x, hi, hlen ▸ hout⟩))

/-! ### The invariant -/

theorem step_prng_ne_zero {s t : State} (h : step s = .next t) (hs : s.prng ≠ 0) : t.prng ≠ 0 := by
  obtain hsame | ⟨i, u, _, he, rfl, hmem⟩ := step_part_cases h (p := .prng) (by decide)
  · rwa [show t.prng = s.prng from hsame]
  · obtain ⟨x, kk, rfl⟩ := eq_of_prng_mem_partWriteSet hmem
    cases he
    exact xorshift_ne_zero hs

/-- Settles O11: each clause of the invariant concerns one part, and the cases of that part keep it. -/
theorem stepKeepsTheInvariant : Obligations.StepKeepsTheInvariant := by
  intro s t hinv h
  obtain ⟨hmem, hbound, heven, hleft, hprng⟩ := hinv
  simp only [Config.stackBase] at hbound
  refine ⟨?_, ?_, ?_, ?_, step_prng_ne_zero h hprng⟩
  · obtain hs | ⟨addr, bs, hfits, hs, _⟩ := step_mem_cases h
    · rwa [hs]
    · exact hs ▸ Memory.wf_writeBlock bs s.mem addr hmem hfits
  · show t.sp.toNat ≤ 0x200
    obtain hs | ⟨_, _, _, hs⟩ | ⟨_, _, hs⟩ := step_sp_cases h <;> bv_omega
  · obtain hs | ⟨_, _, _, hs⟩ | ⟨_, _, hs⟩ := step_sp_cases h <;> bv_omega
  · exact step_leftover h ▸ Nat.mod_lt _ (by decide)

end Sys2Proof.Machine
end

section
/-!
PROOFS. The results of a tick (40_cycle, 60_exceptions): how each way a step ends leaves the result, the wait mode, the record of the
first error and the request.
-/

namespace Sys2Proof.Machine

/-! ### The wait mode (R133, R260) -/

/-- The wait mode and the result of an instruction: only an `Fx0A` without a key enters the mode, and only it returns Waiting. -/
theorem Outcomes.wait_cases {i : Instr} {s t : State} (h : Outcomes i s t) :
    (t.wait = s.wait ∧ t.result ≠ some .waiting) ∨
    ∃ x, i = .ldVxK x ∧ s.input.key = none ∧ t.wait = true ∧ t.waitx = x ∧ t.result = some .waiting := by
  cases h with
  | completed hr h =>
    have hwait : t.wait = s.wait := h.1 .wait (by simp [wait_not_mem_partWriteSet])
    exact .inl ⟨hwait, by simp [hr]⟩
  | errored f h => exact .inl (by simp [h])
  | waits x hi hk h => exact .inr ⟨x, hi, hk, by simp [h]⟩

/-- What a step does to the wait mode, and when it returns Waiting. -/
theorem step_wait_cases {s t : State} (h : step s = .next t) :
    (s.wait = true ∧ (∃ k, s.input.key = some k) ∧ t.wait = false ∧ t.result = some .ok) ∨
    (s.wait = true ∧ t.wait = true ∧ t.result = some .waiting) ∨
    (s.wait = false ∧ t.wait = false ∧ t.result ≠ some .waiting) ∨
    (s.wait = false ∧ t.wait = true ∧ t.result = some .waiting ∧
      ∃ x, Executes s (.ldVxK x) ∧ s.input.key = none ∧ t.waitx = x) := by
  obtain ⟨u, rfl, ho⟩ := step_outcomes h
  cases ho with
  | keyTaken k hw hk h => exact .inl ⟨hw, ⟨k, hk⟩, h ▸ rfl, h ▸ rfl⟩
  | keyAwaited hw hk h => exact .inr (.inl ⟨hw, h ▸ hw, h ▸ rfl⟩)
  | fetchError hw _ h => exact .inr (.inr (.inl ⟨hw, h ▸ hw, by simp [h]⟩))
  | undefinedWord hw _ _ h => exact .inr (.inr (.inl ⟨hw, h ▸ hw, by simp [h]⟩))
  | ran i hi _ h =>
    obtain ⟨hwait, hr⟩ | ⟨x, rfl, hk, hwait, hx, hr⟩ := h.wait_cases
    · exact .inr (.inr (.inl ⟨hi.1, hwait.trans ((entered_wait i s).trans hi.1), hr⟩))
    · exact .inr (.inr (.inr ⟨hi.1, hwait, hr, x, hi, by rwa [entered_input] at hk, hx⟩))

/-- Settles O14: in each of the four cases of the wait mode. -/
theorem waitingResultMeansWaitMode : Obligations.WaitingResultMeansWaitMode := by
  intro s t h
  obtain ⟨_, _, hw, hr⟩ | ⟨_, hw, hr⟩ | ⟨_, hw, hr⟩ | ⟨_, hw, hr, _⟩ := step_wait_cases h <;> simp [hw, hr]

/-- Settles O15: of the four cases of the wait mode one enters it and one leaves it. -/
theorem waitModeChangesOnlyByTheKeyWait : Obligations.WaitModeChangesOnlyByTheKeyWait := by
  intro s t h
  obtain ⟨hs, hk, ht, _⟩ | ⟨hs, ht, _⟩ | ⟨hs, ht, _⟩ | ⟨hs, ht, _, hx⟩ := step_wait_cases h
  · exact ⟨fun hw => absurd (hs.symm.trans hw) (by decide), fun _ _ => hk⟩
  · exact ⟨fun hw => absurd (hs.symm.trans hw) (by decide), fun _ hw => absurd (ht.symm.trans hw) (by decide)⟩
  · exact ⟨fun _ hw => absurd (ht.symm.trans hw) (by decide), fun hw => absurd (hs.symm.trans hw) (by decide)⟩
  · exact ⟨fun _ _ => hx, fun hw => absurd (hs.symm.trans hw) (by decide)⟩

/-! ### Errors (R237, R239) -/

/-- `Fx0A` raises no error. -/
theorem exec_ldVxK_result_ne_error {s t : State} {x : RegIdx} (h : exec (.ldVxK x) s = .next t) (f : Fault) :
    t.result ≠ some (.error f) := by
  cases hk : s.input.key with
  | some k =>
    rw [exec_ldVxK_of_key x hk] at h
    cases h
    simp [takeKey]
  | none =>
    rw [exec_ldVxK_of_no_key x hk] at h
    cases h
    simp

/-- An instruction that ends in an error leaves its state alone but for the records. -/
theorem Outcomes.eq_of_error {i : Instr} {s t : State} {f : Fault} (h : Outcomes i s t) (hr : t.result = some (.error f)) :
    t = (s.noteError f).setResult (.error f) := by
  cases h with
  | completed hok _ => exact absurd (hok.symm.trans hr) (by simp)
  | errored g h =>
    subst h
    cases hr
    rfl
  | waits x _ _ h => exact absurd hr (by simp [h])

/-- How a tick ends that returns an error: at the fetch, or with PC advanced; and nothing but the error is done then. -/
theorem step_error_cases {s t : State} {f : Fault} (h : step s = .next t) (hr : t.result = some (.error f)) :
    ∃ u, t = endTick ((u.noteError f).setResult (.error f)) ∧ ChangesOnly [.pc, .dt, .st, .leftover, .sent] [] s u ∧
      u.sent = none ∧ u.firstError = s.firstError ∧
      ((4096 < s.pc.toNat + 2 ∧ f = .addressOutOfRange s.pc.toNat 2 ∧ u.pc = s.pc) ∨
       (s.pc.toNat + 2 ≤ 4096 ∧ u.pc = s.pc + 2)) := by
  obtain ⟨u, rfl, ho⟩ := step_outcomes h
  cases ho with
  | keyTaken k _ _ h => exact absurd hr (by simp [h, takeKey])
  | keyAwaited _ _ h => exact absurd hr (by simp [h])
  | fetchError _ hp h =>
    subst h
    cases hr
    exact ⟨beginTick s, rfl, (changesOnly_beginTick s).mono (by simp) (by simp), rfl, rfl, .inl ⟨hp, rfl, rfl⟩⟩
  | undefinedWord _ hp _ h =>
    subst h
    cases hr
    exact ⟨advancePc (beginTick s), rfl,
      ((changesOnly_beginTick s).trans (changesOnly_advancePc _)).mono (by simp) (by simp), rfl, rfl, .inr ⟨hp, rfl⟩⟩
  | ran i hi he h =>
    have hpc : (entered i s).pc = s.pc + 2 := entered_pc (fun x hx => by
      subst hx
      exact exec_ldVxK_result_ne_error he f hr) s
    exact ⟨entered i s, congrArg endTick (h.eq_of_error hr), changesOnly_entered i s, entered_sent i s, entered_firstError i s,
      .inr ⟨(executes_iff.mp hi).2.1, hpc⟩⟩

/-- Settles O21: an error is noted in a state that the Clock phase and the PC advance have made, and in nothing else. -/
theorem errorTickLeavesTheRestUnchanged : Obligations.ErrorTickLeavesTheRestUnchanged := by
  intro s t f h hr
  obtain ⟨u, rfl, hframe, hsent, _, hpc⟩ := step_error_cases h hr
  refine ⟨changesOnly_errorTick f hframe, hsent, ?_⟩
  obtain ⟨hp, hf, hpc⟩ | ⟨hp, hpc⟩ := hpc
  · exact .inl ⟨by omega, hf, hpc⟩
  · exact .inr ⟨by omega, hpc⟩

/-- A tick that returns no error leaves the record of the first error alone. -/
theorem step_firstError_eq {s t : State} (h : step s = .next t) (hr : ∀ f, t.result ≠ some (.error f)) :
    t.firstError = s.firstError := by
  obtain ⟨u, rfl, ho⟩ := step_outcomes h
  cases ho with
  | keyTaken k _ _ h => exact h ▸ rfl
  | keyAwaited _ _ h => exact h ▸ rfl
  | fetchError _ _ h =>
    subst h
    exact absurd rfl (hr _)
  | undefinedWord _ _ _ h =>
    subst h
    exact absurd rfl (hr _)
  | ran i _ _ h =>
    rw [endTick_firstError, ← entered_firstError i s]
    cases h with
    | completed _ h => exact h.1 .firstError (by simp [firstError_not_mem_partWriteSet])
    | errored f h => exact absurd (h ▸ rfl) (hr f)
    | waits x _ _ h => exact h ▸ rfl

theorem step_firstError_of_error {s t : State} {f : Fault} (h : step s = .next t) (hr : t.result = some (.error f)) :
    t.firstError = s.firstError.or (some f) := by
  obtain ⟨u, rfl, _, _, hfirst, _⟩ := step_error_cases h hr
  rw [endTick_firstError, setResult_firstError, noteError_firstError, hfirst]

/-- Settles O22: a tick without an error keeps the record, and one with an error fills it if it is empty. -/
theorem firstErrorIsSticky : Obligations.FirstErrorIsSticky := by
  intro s t h
  constructor
  · intro f hs
    by_cases hr : ∃ g, t.result = some (.error g)
    · obtain ⟨g, hg⟩ := hr
      rw [step_firstError_of_error h hg, hs, Option.some_or]
    · rw [step_firstError_eq h (not_exists.mp hr), hs]
  · intro f hs hr
    rw [step_firstError_of_error h hr, hs, Option.none_or]

/-! ### Requests (R220) -/

theorem eq_of_sent_mem_partWriteSet {i : Instr} (h : .sent ∈ partWriteSet i) :
    i = .cls ∨ (∃ x y n, i = .drw x y n) ∨ (∃ x, i = .skp x) ∨ (∃ x, i = .sknp x) ∨ ∃ x, i = .ldVxK x := by
  cases i <;> simp_all [partWriteSet]

/-- `Fx0A` sends KEY_EVENT, with a key or without. -/
theorem exec_ldVxK_sent {s t : State} {x : RegIdx} (h : exec (.ldVxK x) s = .next t) : t.sent = some .keyEvent := by
  cases hk : s.input.key with
  | some k =>
    rw [exec_ldVxK_of_key x hk] at h
    cases h
    rfl
  | none =>
    rw [exec_ldVxK_of_no_key x hk] at h
    cases h
    rfl

/-- `Dxyn` sends its sprite or, on a bounds error, nothing. -/
theorem exec_drw_sent_cases {s t : State} {x y : RegIdx} {n : BitVec 4} (h : exec (.drw x y n) s = .next t) :
    t.sent = s.sent ∨ t.sent = some (.dispDraw (s.reg x) (s.reg y) (s.mem.readBlock s.i.toNat n.toNat)) := by
  by_cases hfits : n.toNat = 0 ∨ s.i.toNat + n.toNat ≤ 4096
  · rw [exec_drw_of_fits x y hfits] at h
    cases h
    exact .inr rfl
  · rw [exec_drw_of_outside x y (by omega) (by omega)] at h
    cases h
    exact .inl rfl

/-- An instruction that sends names its request. -/
theorem exec_sent_cases {i : Instr} {s t : State} (he : exec i s = .next t) (ho : Outcomes i s t) :
    t.sent = s.sent ∨
    (i = .cls ∧ t.sent = some .dispClear) ∨
    (∃ x y n, i = .drw x y n ∧ t.sent = some (.dispDraw (s.reg x) (s.reg y) (s.mem.readBlock s.i.toNat n.toNat))) ∨
    (∃ x, (i = .skp x ∨ i = .sknp x) ∧ t.sent = some (.keyIsDown (s.reg x))) ∨
    ((∃ x, i = .ldVxK x) ∧ t.sent = some .keyEvent) := by
  by_cases hmem : .sent ∈ partWriteSet i
  · obtain rfl | ⟨x, y, n, rfl⟩ | ⟨x, rfl⟩ | ⟨x, rfl⟩ | ⟨x, rfl⟩ := eq_of_sent_mem_partWriteSet hmem
    · cases he
      exact .inr (.inl ⟨rfl, rfl⟩)
    · obtain hs | hs := exec_drw_sent_cases he
      · exact .inl hs
      · exact .inr (.inr (.inl ⟨x, y, n, rfl, hs⟩))
    · rw [exec_skp] at he
      cases he
      exact .inr (.inr (.inr (.inl ⟨x, .inl rfl, rfl⟩)))
    · rw [exec_sknp] at he
      cases he
      exact .inr (.inr (.inr (.inl ⟨x, .inr rfl, rfl⟩)))
    · exact .inr (.inr (.inr (.inr ⟨⟨x, rfl⟩, exec_ldVxK_sent he⟩)))
  · left
    cases ho with
    | completed _ h => exact h.1 .sent (by simp [hmem])
    | errored f h => exact h ▸ rfl
    | waits x hi _ _ => exact absurd (by simp [hi, partWriteSet]) hmem

/-- Settles O20: a tick begins with nothing sent, and each sender names its own request. -/
theorem requestsComeOnlyFromFiveInstructions : Obligations.RequestsComeOnlyFromFiveInstructions := by
  intro s t h r hr
  obtain ⟨u, rfl, ho⟩ := step_outcomes h
  rw [endTick_sent] at hr
  cases ho with
  | keyTaken k hw _ h =>
    subst h
    cases hr
    exact .inl ⟨rfl, .inl hw⟩
  | keyAwaited hw _ h =>
    subst h
    cases hr
    exact .inl ⟨rfl, .inl hw⟩
  | fetchError _ _ h =>
    subst h
    cases hr
  | undefinedWord _ _ _ h =>
    subst h
    cases hr
  | ran i hi he h =>
    obtain hs | ⟨rfl, hs⟩ | ⟨x, y, n, rfl, hs⟩ | ⟨x, hx, hs⟩ | ⟨⟨x, rfl⟩, hs⟩ := exec_sent_cases he h
    · rw [entered_sent] at hs
      cases hs.symm.trans hr
    · cases hs.symm.trans hr
      exact .inr (.inl ⟨rfl, hi⟩)
    · rw [entered_reg, entered_reg] at hs
      cases hs.symm.trans hr
      exact .inr (.inr (.inl ⟨x, y, n, _, rfl, Memory.length_readBlock _ _ _, hi⟩))
    · rw [entered_reg] at hs
      cases hs.symm.trans hr
      obtain rfl | rfl := hx
      · exact .inr (.inr (.inr ⟨x, rfl, .inl hi⟩))
      · exact .inr (.inr (.inr ⟨x, rfl, .inr hi⟩))
    · cases hs.symm.trans hr
      exact .inl ⟨rfl, .inr ⟨x, hi⟩⟩

end Sys2Proof.Machine
end

section
/-!
PROOFS. The program counter (10_state R26): where each instruction leaves it, on natural numbers.
-/

namespace Sys2Proof.Machine

/-- `Fx0A` advances PC by itself when a key has come, and otherwise waits where it is. -/
theorem exec_ldVxK_pc_cases {s t : State} {x : RegIdx} (h : exec (.ldVxK x) s = .next t) :
    (t.wait = true ∧ t.pc = s.pc) ∨ t.pc = s.pc + 2 := by
  cases hk : s.input.key with
  | some k =>
    rw [exec_ldVxK_of_key x hk] at h
    cases h
    exact .inr rfl
  | none =>
    rw [exec_ldVxK_of_no_key x hk] at h
    cases h
    exact .inl ⟨rfl, rfl⟩

theorem skipIf_pc_cases (c : Bool) (s : State) : (skipIf c s).pc = s.pc ∨ (skipIf c s).pc = s.pc + 2 := by
  cases c
  · exact .inl rfl
  · exact .inr rfl

theorem cases_of_pc_mem_partWriteSet {i : Instr} (h : .pc ∈ partWriteSet i) :
    i = .ret ∨ (∃ nnn, i = .jp nnn) ∨ (∃ nnn, i = .call nnn) ∨ (∃ nnn, i = .jpV0 nnn) ∨ (∃ x, i = .ldVxK x) ∨
      isSkip i = true := by
  cases i <;> simp_all [partWriteSet, isSkip]

theorem exec_skip_pc_cases {i : Instr} {s t : State} (hi : isSkip i = true) (h : exec i s = .next t) :
    t.pc = s.pc ∨ t.pc = s.pc + 2 := by
  cases i with
  | seImm _ _ | sneImm _ _ | seReg _ _ | sneReg _ _ | skp _ | sknp _ =>
    cases h
    exact skipIf_pc_cases _ _
  | _ => cases hi

/-- Where an instruction leaves PC, but `00EE` and `Fx0A`: where it found it, two further, or at its target. -/
theorem exec_pc_cases {i : Instr} {s t : State} (he : exec i s = .next t) (ho : Outcomes i s t) (hret : i ≠ .ret)
    (hkey : ∀ x, i ≠ .ldVxK x) :
    t.pc = s.pc ∨ (isSkip i = true ∧ t.pc = s.pc + 2) ∨
    (∃ nnn, (i = .jp nnn ∨ i = .call nnn) ∧ t.pc.toNat = nnn.toNat) ∨
    ∃ nnn, i = .jpV0 nnn ∧ t.pc.toNat = nnn.toNat + (s.reg 0).toNat := by
  by_cases hmem : .pc ∈ partWriteSet i
  · obtain rfl | ⟨nnn, rfl⟩ | ⟨nnn, rfl⟩ | ⟨nnn, rfl⟩ | ⟨x, rfl⟩ | hskip := cases_of_pc_mem_partWriteSet hmem
    · exact absurd rfl hret
    · cases he
      exact .inr (.inr (.inl ⟨nnn, .inl rfl, toNat_addrImm nnn⟩))
    · obtain ⟨_, _, rfl⟩ | ⟨f, rfl⟩ := exec_call_cases he
      · exact .inr (.inr (.inl ⟨nnn, .inr rfl, toNat_addrImm nnn⟩))
      · exact .inl rfl
    · cases he
      exact .inr (.inr (.inr ⟨nnn, rfl, toNat_addrImm_add_zext16 nnn _⟩))
    · exact absurd rfl (hkey x)
    · exact (exec_skip_pc_cases hskip he).imp_right fun hpc => .inl ⟨hskip, hpc⟩
  · exact .inl (ho.part_same (p := .pc) (by decide) hmem)

/-- A word that a fetch allows as an address takes two and four more without a wrap. -/
theorem toNat_add_two_of_fetchable {w : Word} (h : w.toNat + 2 ≤ 4096) : (w + 2).toNat = w.toNat + 2 :=
  BitVec.toNat_add_of_lt (show w.toNat + 2 < 2 ^ 16 by omega)

theorem toNat_add_four_of_fetchable {w : Word} (h : w.toNat + 2 ≤ 4096) : (w + 2 + 2).toNat = w.toNat + 4 := by
  rw [BitVec.add_assoc]
  exact BitVec.toNat_add_of_lt (show w.toNat + 4 < 2 ^ 16 by omega)

/-- Where a tick leaves PC that executes an instruction other than `00EE`. -/
theorem step_pc_cases {s t : State} {i : Instr} (hi : Executes s i) (hret : i ≠ .ret) (h : step s = .next t) :
    ((∃ x, i = .ldVxK x) ∧ t.wait = true ∧ t.pc.toNat = s.pc.toNat) ∨
    t.pc.toNat = s.pc.toNat + 2 ∨
    (isSkip i = true ∧ t.pc.toNat = s.pc.toNat + 4) ∨
    (∃ nnn, (i = .jp nnn ∨ i = .call nnn) ∧ t.pc.toNat = nnn.toNat) ∨
    ∃ nnn, i = .jpV0 nnn ∧ t.pc.toNat = nnn.toNat + (s.reg 0).toNat := by
  obtain ⟨_, hp, _⟩ := executes_iff.mp hi
  obtain ⟨u, he, ho⟩ := exec_cases i (entered i s)
  cases h.symm.trans (step_eq_of_executes hi he)
  rw [endTick_pc, endTick_wait]
  by_cases hkey : ∃ x, i = .ldVxK x
  · obtain ⟨x, rfl⟩ := hkey
    obtain ⟨hw, hpc⟩ | hpc := exec_ldVxK_pc_cases he
    · exact .inl ⟨⟨x, rfl⟩, hw, congrArg BitVec.toNat hpc⟩
    · exact .inr (.inl ((congrArg BitVec.toNat hpc).trans (toNat_add_two_of_fetchable hp)))
  · have hcases := exec_pc_cases he ho hret (not_exists.mp hkey)
    rw [entered_pc (not_exists.mp hkey), entered_reg] at hcases
    obtain hpc | ⟨hskip, hpc⟩ | hpc | hpc := hcases
    · exact .inr (.inl (by rw [hpc, toNat_add_two_of_fetchable hp]))
    · exact .inr (.inr (.inl ⟨hskip, by rw [hpc, toNat_add_four_of_fetchable hp]⟩))
    · exact .inr (.inr (.inr (.inl hpc)))
    · exact .inr (.inr (.inr (.inr hpc)))

/-- Settles O23: each place where PC can stand is at most `0xFFF + 0xFF`. -/
theorem pcStaysLowUnlessPopped : Obligations.PcStaysLowUnlessPopped := by
  constructor
  · intro s t i hi hret h
    have hcases := step_pc_cases hi hret h
    refine ⟨?_, hcases⟩
    obtain ⟨_, hp, _⟩ := executes_iff.mp hi
    have hreg := (s.reg 0).isLt
    obtain ⟨_, _, hpc⟩ | hpc | ⟨_, hpc⟩ | ⟨nnn, _, hpc⟩ | ⟨nnn, _, hpc⟩ := hcases <;> omega
  · intro s t hw hp h
    cases hk : s.input.key with
    | some k =>
      cases h.symm.trans (step_eq_of_wait_key hw hk)
      exact .inr ⟨rfl, toNat_add_two_of_fetchable (w := s.pc) (by omega)⟩
    | none =>
      cases h.symm.trans (step_eq_of_wait_no_key hw hk)
      exact .inl ⟨hw, rfl⟩

end Sys2Proof.Machine
end

section
/-!
PROOFS. Noninterference of ST (10_state R33, 60_exceptions R254): every part of a tick commutes with a write of ST, up to the value that
ST has afterwards.
-/

namespace Sys2Proof.Machine

/-! ### The operations -/

theorem skipIf_setSt (c : Bool) (s : State) (a : Byte) : skipIf c (s.setSt a) = (skipIf c s).setSt a := by cases c <;> rfl

theorem regList_setSt (s : State) (k n : Nat) (a : Byte) : (s.setSt a).regList k n = s.regList k n := by
  induction n generalizing k with
  | zero => rfl
  | succ n ih => exact congrArg (s.reg (Fin.ofNat 16 k) :: ·) (ih (k + 1))

theorem setRegList_setSt (bs : List Byte) (s : State) (k : Nat) (a : Byte) :
    (s.setSt a).setRegList k bs = (s.setRegList k bs).setSt a := by
  induction bs generalizing s k with
  | nil => rfl
  | cons b bs ih => exact ih (s.setReg (Fin.ofNat 16 k) b) (k + 1)

theorem storeBlock_setSt (bs : List Byte) (s : State) (a : Byte) :
    storeBlock bs (s.setSt a) = thenNext (·.setSt a) (storeBlock bs s) := by
  unfold storeBlock blockAddr
  rw [setSt_mem, setSt_i]
  cases memWrite s.mem s.i.toNat bs <;> rfl

/-! ### The instructions -/

/-- What an instruction does beside ST does not depend on ST. Only `Fx18` leaves another value in ST than it finds, and it takes that
from a register. -/
theorem exec_setSt (i : Instr) (s : State) (a : Byte) : ∃ b, exec i (s.setSt a) = thenNext (·.setSt b) (exec i s) := by
  cases i with
  | ldStVx x => exact ⟨s.reg x, rfl⟩
  | seImm _ _ | sneImm _ _ | seReg _ _ | sneReg _ _ => exact ⟨a, congrArg done (skipIf_setSt _ s a)⟩
  | skp x | sknp x => exact ⟨a, congrArg done (skipIf_setSt _ (send (.keyIsDown (s.reg x)) s) a)⟩
  | ldB x => exact ⟨a, storeBlock_setSt (bcdDigits (s.reg x)) s a⟩
  | storeRegs x =>
    exact ⟨a, (congrArg (storeBlock · (s.setSt a)) (regList_setSt s 0 _ a)).trans (storeBlock_setSt (s.regsUpTo x) s a)⟩
  | ret =>
    refine ⟨a, ?_⟩
    obtain hentry | hempty := le_or_gt (s.sp.toNat + 2) 0x200
    · rw [exec_ret_of_entry hentry, exec_ret_of_entry (s := s.setSt a) hentry]
      rfl
    · rw [exec_ret_of_empty hempty, exec_ret_of_empty (s := s.setSt a) hempty]
      rfl
  | call nnn =>
    refine ⟨a, ?_⟩
    obtain hfull | hlo := Nat.lt_or_ge s.sp.toNat 2
    · rw [exec_call_of_full nnn hfull, exec_call_of_full (s := s.setSt a) nnn hfull]
      rfl
    obtain hhi | hbeyond := le_or_gt s.sp.toNat 4096
    · rw [exec_call_of_room nnn hlo hhi, exec_call_of_room (s := s.setSt a) nnn hlo hhi]
      rfl
    · rw [exec_call_of_beyond nnn hbeyond, exec_call_of_beyond (s := s.setSt a) nnn hbeyond]
      rfl
  | drw x y n =>
    refine ⟨a, ?_⟩
    by_cases hfits : n.toNat = 0 ∨ s.i.toNat + n.toNat ≤ 4096
    · rw [exec_drw_of_fits x y hfits, exec_drw_of_fits (s := s.setSt a) x y hfits]
      rfl
    · have hn : 1 ≤ n.toNat := by omega
      have hout : 4096 < s.i.toNat + n.toNat := by omega
      rw [exec_drw_of_outside x y hn hout, exec_drw_of_outside (s := s.setSt a) x y hn hout]
      rfl
  | loadRegs x =>
    refine ⟨a, ?_⟩
    obtain hfits | hout := le_or_gt (s.i.toNat + x.val + 1) 4096
    · rw [exec_loadRegs_of_fits hfits, exec_loadRegs_of_fits (s := s.setSt a) hfits]
      exact congrArg done (setRegList_setSt _ s 0 a)
    · rw [exec_loadRegs_of_outside hout, exec_loadRegs_of_outside (s := s.setSt a) hout]
      rfl
  | ldVxK x =>
    refine ⟨a, ?_⟩
    cases hk : s.input.key with
    | some k =>
      rw [exec_ldVxK_of_key x hk, exec_ldVxK_of_key (s := s.setSt a) x hk]
      rfl
    | none =>
      rw [exec_ldVxK_of_no_key x hk, exec_ldVxK_of_no_key (s := s.setSt a) x hk]
      rfl
  | cls | jp _ | jpV0 _ | ldImm _ _ | addImm _ _ | ldReg _ _ | orReg _ _ | andReg _ _ | xorReg _ _ | addReg _ _ | subReg _ _
  | shr _ _ | subnReg _ _ | shl _ _ | ldI _ | rnd _ _ | ldVxDt _ | ldDtVx _ | addI _ | ldF _ => exact ⟨a, rfl⟩

/-! ### The tick -/

theorem enter_setSt (i : Instr) (s : State) (a : Byte) : enter i (s.setSt a) = (enter i s).setSt a := by
  unfold enter
  split <;> rfl

theorem waitPhase_setSt (s : State) (a : Byte) : waitPhase (s.setSt a) = thenNext (·.setSt a) (waitPhase s) := by
  unfold waitPhase
  rw [input_setSt]
  cases s.input.key <;> rfl

theorem runWord_setSt (w : Word) (s : State) (a : Byte) : ∃ b, runWord w (s.setSt a) = thenNext (·.setSt b) (runWord w s) := by
  unfold runWord
  cases decodeWord w with
  | some i =>
    obtain ⟨b, hb⟩ := exec_setSt i (enter i s) a
    exact ⟨b, (congrArg (exec i) (enter_setSt i s a)).trans hb⟩
  | none => exact ⟨a, rfl⟩

theorem fetch_setSt (s : State) (a : Byte) : fetch (s.setSt a) = fetch s := rfl

theorem afterClock_setSt (s : State) (a : Byte) : ∃ b, afterClock (s.setSt a) = thenNext (·.setSt b) (afterClock s) := by
  unfold afterClock
  rw [setSt_wait, fetch_setSt]
  by_cases hw : s.wait = true
  · rw [if_pos hw, if_pos hw]
    exact ⟨a, waitPhase_setSt s a⟩
  · rw [if_neg hw, if_neg hw]
    cases fetch s with
    | ok w => exact runWord_setSt w s a
    | error f => exact ⟨a, rfl⟩

/-- The Clock phase counts down whatever stands in ST, and reads it for nothing else. -/
theorem beginTick_setSt (s : State) (a : Byte) :
    beginTick (s.setSt a) = (beginTick s).setSt (countDown a (periods s.input.elapsed s.leftover)) := rfl

/-- Settles O24: the Clock phase, the wait phase, the fetch and every instruction commute with a write of ST. -/
theorem soundTimerInfluencesNothing : Obligations.SoundTimerInfluencesNothing := by
  intro s t a h
  obtain ⟨u, hu, rfl⟩ := thenNext_next h
  obtain ⟨b, hb⟩ := afterClock_setSt (beginTick s) (countDown a (periods s.input.elapsed s.leftover))
  refine ⟨b, ?_⟩
  show thenNext endTick (afterClock (beginTick (s.setSt a))) = _
  rw [beginTick_setSt, hb, hu]
  rfl

end Sys2Proof.Machine
end
